-- ==== Sys2Proof/Word.lean ====
section
/-! DEFINITION. The word types of the engine (spec/00_scope.md R5, R7; spec/20_memory.md R62). -/

namespace Sys2Proof

/-- A register or bus data word: every register of the window is 32 bits wide (R27, R62). -/
abbrev Word := BitVec 32

/-- The 64-bit argument register `ARG = {ARG_HI, ARG_LO}` (R7, R37). -/
abbrev DWord := BitVec 64

/-- One byte lane of the bus (R65). -/
abbrev Byte := BitVec 8

/-- The index of a residue register R0 to R7: a 3-bit field, every value names a register (R22, R93). -/
abbrev Reg := Fin 8

end Sys2Proof
end

