-- ==== Sys2Proof/Machine/Arith.lean ====
section
/-! DEFINITION. The number-theoretic primitives of spec/00_scope.md R9 and R10 as functions the kernel can evaluate.
Each computes by a method the spec names or allows (R144, R193, R214, R237: the method is not architectural, assumption log 11); Laws/Arith.lean
and Laws/Sqrt.lean prove that each has exactly the value the rule gives it. -/

namespace Sys2Proof.Machine

/-- `mod(a, m)`: the unique r with 0 <= r < m and a - r divisible by m (R9); never negative. -/
def modInt (a : Int) (m : Nat) : Nat := (a % (m : Int)).toNat

/-- No number of lo, lo + 2, …, lo + 2 (2^k - 1) whose square is at most n divides n. -/
def noDivisor : Nat → Nat → Nat → Bool
  | 0, lo, n => Nat.blt n (lo * lo) || !(Nat.beq (n % lo) 0)
  | k + 1, lo, n => Nat.blt n (lo * lo) || (noDivisor k lo n && noDivisor k (lo + 2 ^ (k + 1)) n)

/-- `isPrime(n)` (R10, R144) by trial division with 2 and the odd numbers from 3 up; exact for every 32-bit n. -/
def isPrime (n : Nat) : Bool :=
  Nat.beq n 2 || (Nat.ble 3 n && Nat.beq (n % 2) 1 && noDivisor 15 3 n)

/-- The loop of R214: `acc`, `sq` and the exponent bits left, for at most `fuel` bits. -/
def powLoop (m : Nat) : Nat → Nat → Nat → Nat → Nat
  | 0, acc, _, _ => acc
  | fuel + 1, acc, sq, n =>
    if n = 0 then acc
    else powLoop m fuel (if n % 2 = 1 then acc * sq % m else acc) (sq * sq % m) (n / 2)

/-- `powmod(b, e, m) = mod(b^e, m)`, with `b^0 = 1` for every b (R10), for exponents below 2^64 (R214: "at most 64
iterations"). -/
def powmod (b e m : Nat) : Nat := powLoop m 64 (1 % m) (b % m) e

/-- The loop of R193: the pair (gcd, Bézout coefficient of `a`). -/
def bezout : Nat → Nat → Nat → Int → Int → Nat × Int
  | 0, r0, _, t0, _ => (r0, t0)
  | fuel + 1, r0, r1, t0, t1 =>
    if r1 = 0 then (r0, t0) else bezout fuel r1 (r0 % r1) t1 (t0 - (r0 / r1 : Nat) * t1)

/-- `invmod(a, m)`: the unique x in [0, m) with `mod(a * x, m) = 1`, defined when gcd(a, m) = 1 (R10), as the normalised
Bézout coefficient (R193). -/
def invmod (a m : Nat) : Nat := modInt (bezout (a + 1) m a 0 1).2 m

/-- `m - 1 = Q * 2^S` with Q odd (R237): halves `q` while it is even, counting in `s`. -/
def splitTwo : Nat → Nat → Nat → Nat × Nat
  | 0, q, s => (q, s)
  | fuel + 1, q, s => if q % 2 = 0 then splitTwo fuel (q / 2) (s + 1) else (q, s)

/-- The linear search for a non-residue from `z` up (R237). -/
def nonResidue (m : Nat) : Nat → Nat → Nat
  | 0, z => z
  | fuel + 1, z => if powmod z ((m - 1) / 2) m = m - 1 then z else nonResidue m fuel (z + 1)

/-- The least i' >= i with `u^(2^(i' - i)) = 1` (R237's order exponent, by repeated squaring of `u`). -/
def orderExponent (m : Nat) : Nat → Nat → Nat → Nat
  | 0, _, i => i
  | fuel + 1, u, i => if u = 1 then i else orderExponent m fuel (u * u % m) (i + 1)

/-- `u` squared `k` times: `u^(2^k)`. -/
def squareTimes (m : Nat) : Nat → Nat → Nat
  | 0, u => u
  | k + 1, u => squareTimes m k (u * u % m)

/-- The main loop of R237 on M, c, t, R; `fuel` bounds its passes (R238). -/
def tonelliLoop (m : Nat) : Nat → Nat → Nat → Nat → Nat → Nat
  | 0, _, _, _, r => r
  | fuel + 1, bound, c, t, r =>
    if t = 1 then r
    else
      let i := orderExponent m bound t 0
      let b := squareTimes m (bound - i - 1) c
      let c' := b * b % m
      tonelliLoop m fuel i c' (t * c' % m) (r * b % m)

/-- Some square root R of n modulo an odd prime m, where there is one (R237; it covers the fast path R236, where S = 1
and the loop makes no pass). -/
def tonelli (n m : Nat) : Nat :=
  let qs := splitTwo 32 (m - 1) 0
  let z := nonResidue m m 2
  tonelliLoop m qs.2 qs.2 (powmod z qs.1 m) (powmod n qs.1 m) (powmod n ((qs.1 + 1) / 2) m)

/-- "The engine ends with `r <- min(R, m - R)`" (R233): the root in [1, (m-1)/2]. -/
def sqrtmod (n m : Nat) : Nat := min (tonelli n m) (m - tonelli n m)

end Sys2Proof.Machine
end

