-- ==== Sys2Proof/Config.lean ====
section
/-! DEFINITION. The open parameters of the spec (spec/00_scope.md R6; spec/92_eei_decisions.md, rows marked OPEN;
assumption log 2, 8 and 9).
Each is an opaque constant with no body, so that a claim holds whatever its value is. -/

namespace Sys2Proof.Config

/-- Open parameter `BUS_PROTOCOL` (R6, D1): for example APB or AXI4-Lite. The spec works at the level of whole 32-bit
transactions and no rule reads it, so no step of the model does. -/
inductive BusProtocol
  | apb
  | axi4Lite
  | other
  deriving DecidableEq, Repr, Inhabited

/-- Open parameter `RESET_STYLE` (R6, R290, D39): the polarity of the reset signal and whether it is synchronous.
The spec says a model needs only the reset step, so no step of the model reads it. -/
structure ResetStyle where
  activeHigh  : Bool
  synchronous : Bool
  deriving DecidableEq, Repr, Inhabited

opaque busProtocol : BusProtocol

opaque resetStyle : ResetStyle

/-- Which multiple of the window size 0x80 the window base is (R60: `BASE` is a multiple of 0x80). -/
opaque baseIndex : Nat

/-- Open parameter `BASE` (R60, D1). -/
def base : Nat := 0x80 * baseIndex

/-- Open parameter `LATENCY(op)` (R300, D17), as a claim can see it: how many further turns of the outside world
(host accesses, reset edges) the block serves before it completes the n-th operation it accepts, whose latched words are
the list. Finite, with no bound given; "may depend on the operands"; R73 leaves it open. A FREE VALUE (assumption log 2):
nothing in Lean can evaluate it. -/
opaque latency : Nat → List Nat → Nat

end Sys2Proof.Config
end

