-- ==== Sys2Proof/Syntax.lean ====
section
/-! DEFINITION. The operations of the engine (one constructor per row of spec/opcode_table.json), the registers of the
window (spec/10_state.md R27) and the host's pseudo-instructions (spec/30_encoding.md R102). -/

namespace Sys2Proof

/-- The operations of the block. The first six are command words written to CMD (spec/30_encoding.md R95); CONFIG and
SRST are register writes, to MODULUS and to CTRL (R98). -/
inductive Instr
  /-- LOADS rd: `x[rd] <- mod(sint64(ARG), m)` (R161). -/
  | loads (rd : Reg)
  /-- LOADU rd: `x[rd] <- mod(uint64(ARG), m)` (R165). -/
  | loadu (rd : Reg)
  /-- MUL rd, rs1, rs2 (R180). -/
  | mul (rd rs1 rs2 : Reg)
  /-- POW rd, rs1: the exponent is `sint64(ARG)` (R211). -/
  | pow (rd rs1 : Reg)
  /-- INV rd, rs1 (R191). -/
  | inv (rd rs1 : Reg)
  /-- SQRT rd, rs1 (R231). -/
  | sqrt (rd rs1 : Reg)
  /-- CONFIG: a write of `w` to MODULUS (R140). -/
  | config (w : Word)
  /-- SRST: a write of `v` to CTRL with bit 0 of `v` set; bits 31:1 are carried and ignored (R146). -/
  | srst (v : Word)
  deriving DecidableEq, Repr

/-- The registers of the window (R27). `reserved` stands for offsets 0x1C and 0x40 to 0x7C (R39). -/
inductive RegName
  | id
  | ctrl
  | status
  | modulus
  | argLo
  | argHi
  | cmd
  | reserved
  | residue (i : Reg)
  deriving DecidableEq, Repr

/-- The access types of R27: `RO` read-only, `RW` read and write, `W1S` write 1 to act and reads 0, `WO-R` write to act
and reads a status of the last write. -/
inductive AccessType
  | readOnly
  | readWrite
  | writeOneToAct
  | writeToAct
  deriving DecidableEq, Repr

/-- The host's pseudo-instructions (R102). `k` is a mathematical integer whose range `Pseudo.wellFormed` checks. -/
inductive Pseudo
  | setmod (v : Word)
  | li (rd : Reg) (k : Int)
  | liu (rd : Reg) (k : Int)
  | mov (rd rs : Reg)
  | sqr (rd rs : Reg)
  | powi (rd rs : Reg) (k : Int)
  /-- DIV rd, rs1, rs2, rt: `rt` is a scratch register. -/
  | div (rd rs1 rs2 rt : Reg)
  deriving DecidableEq, Repr

end Sys2Proof
end

