-- ==== Sys2Proof/Machine/State.lean ====
section
/-! DEFINITION. The state of the machine as plain data: the block's record of spec/10_state.md R21, and the outside world
it steps beside (the host's coming accesses, the reset input, the timing of completions). -/

namespace Sys2Proof.Machine

/-- Why the machine stops with a fault: never (DEDUCED, assumption log 1). The spec gives the block no fault that stops it: every error is a code in
STATUS.ERRCODE of a completed operation, and the block goes on (spec/60_exceptions.md R260, R268; spec/93 I12: no state
is stuck). The type has no constructor, so no step can answer a fault, which is safe. -/
inductive Fault
  deriving DecidableEq, Repr

/-- Why the model refuses to go on. All but `notModelled` are accesses the spec tells a model to refuse. -/
inductive Refusal
  /-- Raised by `exec` for an instruction with no meaning yet; safe. No arm of this model raises it. -/
  | notModelled (mnemonic : String)
  /-- Raised by a host access that is not 4 bytes wide (spec/20_memory.md R63); safe. -/
  | undefinedWidth
  /-- Raised by a host access whose address is no multiple of 4 (R63); safe. -/
  | misaligned
  /-- Raised by a host access outside the window (R60, spec/40_command_protocol.md R133); safe. -/
  | outsideWindow
  /-- Raised by a host access made while the hardware reset is asserted (spec/70_reset_and_hazards.md R290); safe. -/
  | accessDuringReset
  deriving DecidableEq, Repr

/-- The agents that take steps (R20; assumption log 3). -/
inductive Agent
  | host
  | engine
  deriving DecidableEq, Repr

/-- Read or write. -/
inductive AccessKind
  | read
  | write
  deriving DecidableEq, Repr

/-- A host access: `offset` is its address less BASE (an integer: an address below the window has a negative one),
`bytes` its width, `data` the word a 32-bit write carries. Only `bytes = 4`, `offset` a multiple of 4 in 0 to 0x7C is
defined (R62, R63). -/
structure Access where
  kind   : AccessKind
  offset : Int
  bytes  : Nat
  data   : Word
  deriving DecidableEq, Repr

/-- What the outside world does next. -/
inductive Event
  /-- One host access. -/
  | access (a : Access)
  /-- The host's wait loop `POLL`: one STATUS read at a time until bit 0 (BUSY) is 0 (R101, R302). -/
  | poll
  /-- The host reads the register at `offset` and issues nothing more if the bits of `mask` read `value`: the
  "stop if STATUS.ERR" of `DIV` (R102) and the like. -/
  | stopIf (offset : Int) (mask value : Word)
  /-- The hardware reset input is asserted (R290). -/
  | assertReset
  /-- The hardware reset input is released. -/
  | releaseReset
  deriving DecidableEq, Repr

/-- The values latched when a command is accepted (R21 `snap`, R122). -/
structure Snap where
  cmd : Word
  a   : Word
  b   : Word
  arg : DWord
  m   : Word
  P   : Bool
  F   : Bool
  deriving DecidableEq, Repr

/-- The operation in flight (R21 `pending`, R43). -/
inductive Operation
  | config (w : Word)
  | command (snap : Snap)
  deriving DecidableEq, Repr

/-- What stands beside the block: the outside world, and which agent moves next. No part of it is the spec's state of
the block (R21); assumption log 2, 3, 5 and 14 say what each is. -/
structure Env where
  /-- The agent that takes the next step. -/
  turn      : Agent
  /-- The host's coming actions, the next one first, with the reset edges placed between them. -/
  events    : List Event
  /-- What comes to the block of its own accord, whatever the host is doing: an edge of the reset input, or an access of
  another bus master (R274). Each stands with the number of the outside world's turns that pass before it after the one
  before it, so that it can come in the middle of the host's wait loop (R302; assumption log 14). -/
  arrivals  : List (Nat × Event)
  /-- The words the host's reads have returned, the latest first. -/
  reads     : List Word
  /-- The hardware reset input is asserted (R290). -/
  resetLine : Bool
  /-- Completion delays given for the coming operations; where none is left `Config.latency` gives it. -/
  latencies : List Nat
  /-- How many operations have been accepted (the first argument of `Config.latency`). -/
  accepted  : Nat
  /-- How many further turns of the outside world pass before the operation in flight completes. -/
  delay     : Nat
  deriving DecidableEq, Repr

/-- The machine: the record of R21, field by field, and its surroundings. -/
structure State where
  /-- Residue registers R0 to R7 (R22). -/
  x        : Vector Word 8
  /-- The configured modulus, 0 while unconfigured (R36). -/
  modulus  : Word
  cfgValid : Bool
  modPrime : Bool
  cfgFault : Bool
  busy     : Bool
  done     : Bool
  dropped  : Bool
  /-- STATUS.ERRCODE, four bits (R33, R261). ERR is not stored (R21). -/
  errcode  : BitVec 4
  /-- ARG = `ARG_HI ++ ARG_LO` (R37). -/
  arg      : DWord
  /-- The last accepted command word (R38). -/
  lastcmd  : Word
  pending  : Option Operation
  env      : Env
  deriving DecidableEq, Repr

/-- The surroundings right after reset: nothing queued, nothing read, the reset input released (assumption log 5). -/
def Env.reset : Env where
  turn := .host
  events := []
  arrivals := []
  reads := []
  resetLine := false
  latencies := []
  accepted := 0
  delay := 0

/-- The machine right after reset (R45: "No value is left unspecified"). -/
def State.reset : State where
  x := Vector.replicate 8 0
  modulus := 0
  cfgValid := false
  modPrime := false
  cfgFault := false
  busy := false
  done := false
  dropped := false
  errcode := 0
  arg := 0
  lastcmd := 0
  pending := none
  env := Env.reset

end Sys2Proof.Machine
end

