-- ==== Sys2Proof/Machine/Flags.lean ====
section
/-! DEFINITION. The STATUS flags and the error codes (spec/10_state.md R30 to R35, spec/60_exceptions.md R261). -/

namespace Sys2Proof.Machine

/-- The errors of R261. Code 3 (BinomialOutOfRange) is reserved and never raised, so it has no constructor. -/
inductive ErrorCode
  /-- Code 1: an illegal MODULUS word, or a command after a configuration fault. -/
  | invalidModulusConfig
  /-- Code 2: the value to invert shares a factor with m, or is 0. -/
  | uninvertible
  /-- Code 4: SQRT of n ≠ 0 under a composite modulus. -/
  | notPrimeModulus
  /-- Code 5: SQRT of a non-residue under an odd prime. -/
  | notQuadraticResidue
  /-- Code 6: a command before any configuration. -/
  | notConfigured
  /-- Code 7: a command word that matches no row of R95. -/
  | illegalCommand
  deriving DecidableEq, Repr

/-- The code numbers of R261. -/
def ErrorCode.code : ErrorCode → BitVec 4
  | .invalidModulusConfig => 1
  | .uninvertible => 2
  | .notPrimeModulus => 4
  | .notQuadraticResidue => 5
  | .notConfigured => 6
  | .illegalCommand => 7

/-- STATUS.ERR always equals `ERRCODE != 0` (R33). -/
def State.err (s : State) : Bool := s.errcode != 0

/-- A flag as a one-bit field. -/
def flagBit (b : Bool) : BitVec 1 := BitVec.ofBool b

/-- The STATUS word (R30): ERRCODE in bits 11:8, then bit 7 reserved, DROPPED, CFG_FAULT, MOD_PRIME, CFG_VALID, ERR,
DONE and BUSY in bit 0; bits 31:12 reserved. -/
def State.status (s : State) : Word :=
  (0 : BitVec 20) ++ s.errcode ++ (0 : BitVec 1) ++ flagBit s.dropped ++ flagBit s.cfgFault ++ flagBit s.modPrime
    ++ flagBit s.cfgValid ++ flagBit s.err ++ flagBit s.done ++ flagBit s.busy

/-- The flags of an accepted operation: BUSY set, DONE and ERRCODE (so ERR) cleared (R122, R141). An error status lasts
until here (R269). -/
def State.flagsAccepted (s : State) : State := { s with busy := true, done := false, errcode := 0 }

/-- The flags of a completed operation: BUSY cleared, DONE set, ERRCODE the code given (R126, R127, R143). -/
def State.flagsCompleted (code : BitVec 4) (s : State) : State := { s with busy := false, done := true, errcode := code }

end Sys2Proof.Machine
end

