-- ==== Sys2Proof/WellFormed.lean ====
section
/-! DEFINITION. The checks an operation and a pseudo-instruction must pass (register indexes need none: `Reg` holds
exactly the eight values of the 3-bit fields, spec/30_encoding.md R93). -/

namespace Sys2Proof

/-- SRST is a CTRL write with `v[0] = 1` (R98, R146); every other operation is well formed as it stands. -/
def Instr.wellFormed : Instr → Bool
  | .loads _ | .loadu _ | .mul _ _ _ | .pow _ _ | .inv _ _ | .sqrt _ _ | .config _ => true
  | .srst v => v.getLsbD 0

/-- The signed 64-bit range of `LI` and of the exponent of `POWI` (R102, R212). -/
def inSigned64 (k : Int) : Bool := decide (-2 ^ 63 ≤ k) && decide (k < 2 ^ 63)

/-- The unsigned 64-bit range of `LIU` (R102). -/
def inUnsigned64 (k : Int) : Bool := decide (0 ≤ k) && decide (k < 2 ^ 64)

/-- The side conditions of R102's table. -/
def Pseudo.wellFormed : Pseudo → Bool
  | .setmod _ | .mov _ _ | .sqr _ _ => true
  | .li _ k | .powi _ _ k => inSigned64 k
  | .liu _ k => inUnsigned64 k
  | .div _ rs1 _ rt => rt != rs1

end Sys2Proof
end

