-- ==== Sys2Proof/Decode.lean ====
section
/-! DEFINITION. The register map, the byte lanes, the command decoder and the encoder (spec/30_encoding.md R90 to R99,
spec/10_state.md R27 to R40, spec/20_memory.md R62 to R68). The decoder is total: every word written to CMD is exactly one
assigned command or is illegal, by name (R90). -/

namespace Sys2Proof

/-! ### Fields of a command word (R91) -/

/-- OPC, bits 7:0. -/
def opcField (w : Word) : BitVec 8 := w.extractLsb' 0 8

/-- The 3-bit register index whose least significant bit is bit `lo` (R91, R93). -/
def regField (lo : Nat) (w : Word) : Reg := ⟨(w.extractLsb' lo 3).toNat, (w.extractLsb' lo 3).isLt⟩

/-- RD, bits 10:8. -/
def rdField (w : Word) : Reg := regField 8 w

/-- RS1, bits 14:12. -/
def rs1Field (w : Word) : Reg := regField 12 w

/-- RS2, bits 18:16. -/
def rs2Field (w : Word) : Reg := regField 16 w

/-! ### The opcode map (R92, R95) -/

/-- The six command opcodes. -/
inductive Op
  | loads
  | loadu
  | mul
  | pow
  | inv
  | sqrt
  deriving DecidableEq, Repr

/-- The three formats: load, unary, binary (R92). -/
inductive Format
  | L
  | U
  | B
  deriving DecidableEq, Repr

/-- The bits the decoder compares, per format (R92). -/
def Format.mask : Format → Word
  | .L => 0xFFFFF8FF
  | .U => 0xFFFF88FF
  | .B => 0xFFF888FF

/-- One row of the table of R95. -/
structure OpRow where
  op      : Op
  format  : Format
  pattern : Word
  deriving DecidableEq, Repr

/-- The table of R95. -/
def opTable : List OpRow :=
  [ ⟨.loads, .L, 0x00000001⟩,
    ⟨.loadu, .L, 0x00000002⟩,
    ⟨.mul,   .B, 0x00000010⟩,
    ⟨.pow,   .U, 0x00000020⟩,
    ⟨.inv,   .U, 0x00000030⟩,
    ⟨.sqrt,  .U, 0x00000040⟩ ]

/-- "A word w is the command with match M and mask K when `(w AND K) = M`" (R95). -/
def OpRow.matchesWord (r : OpRow) (w : Word) : Bool := w &&& r.format.mask == r.pattern

/-- The command an opcode makes of a word's register fields (R92). -/
def Op.toInstr (op : Op) (w : Word) : Instr :=
  match op with
  | .loads => .loads (rdField w)
  | .loadu => .loadu (rdField w)
  | .mul => .mul (rdField w) (rs1Field w) (rs2Field w)
  | .pow => .pow (rdField w) (rs1Field w)
  | .inv => .inv (rdField w) (rs1Field w)
  | .sqrt => .sqrt (rdField w) (rs1Field w)

/-- Why a command word is illegal; the two names are the model's (DESIGN CHOICE, assumption log 16). -/
inductive IllegalCause
  /-- The OPC value is not in R95's table (R97). -/
  | unassignedOpcode
  /-- The OPC is assigned but a bit its format requires to be 0 is 1 (R96). -/
  | nonzeroFixedBit
  deriving DecidableEq, Repr

/-- What a command word decodes to. An illegal word is a term of its own, never a guessed command (R97). -/
inductive Decoded
  | legal (i : Instr)
  | illegal (w : Word) (why : IllegalCause)
  deriving DecidableEq, Repr

/-- The reason a word that matches no row is illegal. -/
def illegalCause (w : Word) : IllegalCause :=
  if opTable.any (fun r => opcField w == opcField r.pattern) then .nonzeroFixedBit else .unassignedOpcode

/-- The decoder of command words (R90, R95, R96, R97). -/
def decodeCmd (w : Word) : Decoded :=
  match opTable.find? (fun r => r.matchesWord w) with
  | some r => .legal (r.op.toInstr w)
  | none => .illegal w (illegalCause w)

/-! ### The register map (R27) -/

/-- The register at a byte offset of the window; no register at an offset that is misaligned or outside 0x00 to 0x7C
(R27, R60, R62). -/
def RegName.ofOffset (off : Nat) : Option RegName :=
  if off % 4 ≠ 0 ∨ 0x80 ≤ off then none
  else if off = 0x00 then some .id
  else if off = 0x04 then some .ctrl
  else if off = 0x08 then some .status
  else if off = 0x0C then some .modulus
  else if off = 0x10 then some .argLo
  else if off = 0x14 then some .argHi
  else if off = 0x18 then some .cmd
  else if 0x20 ≤ off ∧ off < 0x40 then some (.residue (Fin.ofNat 8 ((off - 0x20) / 4)))
  else some .reserved

/-- The (first) offset of a register (R27). -/
def RegName.offset : RegName → Nat
  | .id => 0x00
  | .ctrl => 0x04
  | .status => 0x08
  | .modulus => 0x0C
  | .argLo => 0x10
  | .argHi => 0x14
  | .cmd => 0x18
  | .reserved => 0x1C
  | .residue i => 0x20 + 4 * i.val

/-- The access column of R27. -/
def RegName.access : RegName → AccessType
  | .id | .status | .reserved | .residue _ => .readOnly
  | .ctrl => .writeOneToAct
  | .modulus | .argLo | .argHi => .readWrite
  | .cmd => .writeToAct

/-! ### Register writes (R68, R98) -/

/-- A 32-bit host write of `data` at byte offset `off`. -/
structure RegWrite where
  off  : Nat
  data : Word
  deriving DecidableEq, Repr

/-- What a 32-bit host write asks of the block (R68). -/
inductive WriteMeaning
  /-- An operation: a legal command word at CMD, any word at MODULUS, or a word with bit 0 set at CTRL. -/
  | operation (i : Instr)
  /-- An illegal word at CMD: it is accepted all the same and completes with IllegalCommand (R97, R121). -/
  | illegalCommand (w : Word) (why : IllegalCause)
  /-- ARG_LO is replaced (R37). -/
  | setArgLo (v : Word)
  /-- ARG_HI is replaced (R37). -/
  | setArgHi (v : Word)
  /-- The write is ignored (R28, R29, R30, R39, R40). -/
  | ignored
  /-- The access has no defined effect (R63). -/
  | undefinedAccess
  deriving DecidableEq, Repr

/-- The meaning of a write to a named register (R68, R98). -/
def decodeRegWrite (r : RegName) (v : Word) : WriteMeaning :=
  match r with
  | .ctrl => if v.getLsbD 0 then .operation (.srst v) else .ignored
  | .modulus => .operation (.config v)
  | .argLo => .setArgLo v
  | .argHi => .setArgHi v
  | .cmd =>
    match decodeCmd v with
    | .legal i => .operation i
    | .illegal w why => .illegalCommand w why
  | .id | .status | .reserved | .residue _ => .ignored

/-- The decoder of register writes, total on every offset and word. -/
def decodeWrite (w : RegWrite) : WriteMeaning :=
  match RegName.ofOffset w.off with
  | some r => decodeRegWrite r w.data
  | none => .undefinedAccess

/-! ### Byte lanes (R65) -/

/-- Byte lane k carries bits `8k+7 : 8k`. -/
def byteLane (k : Nat) (w : Word) : Byte := w.extractLsb' (8 * k) 8

/-- The four lanes of a bus data word, lane 0 first. -/
def wordToLanes (w : Word) : List Byte := [byteLane 0 w, byteLane 1 w, byteLane 2 w, byteLane 3 w]

/-- The bus data word that four lanes carry, lane 0 first. -/
def wordOfLanes (b0 b1 b2 b3 : Byte) : Word := b3 ++ b2 ++ b1 ++ b0

/-- The decoder on bytes, total: a write of exactly four lanes is a 32-bit write; any other count of bytes is an access
the block does not define (R62, R63). -/
def decodeBytes (off : Nat) : List Byte → WriteMeaning
  | [b0, b1, b2, b3] => decodeWrite ⟨off, wordOfLanes b0 b1 b2 b3⟩
  | _ => .undefinedAccess

/-! ### The encoder (R99, R98) -/

/-- "The word for given fields is `OPC | RD << 8 | RS1 << 12 | RS2 << 16`" (R99). -/
def commandWord (opc : Word) (rd rs1 rs2 : Reg) : Word :=
  opc ||| (BitVec.ofNat 32 rd.val <<< 8) ||| (BitVec.ofNat 32 rs1.val <<< 12) ||| (BitVec.ofNat 32 rs2.val <<< 16)

/-- The 32-bit word of an operation. -/
def encodeWord : Instr → Word
  | .loads rd => commandWord 0x01 rd 0 0
  | .loadu rd => commandWord 0x02 rd 0 0
  | .mul rd rs1 rs2 => commandWord 0x10 rd rs1 rs2
  | .pow rd rs1 => commandWord 0x20 rd rs1 0
  | .inv rd rs1 => commandWord 0x30 rd rs1 0
  | .sqrt rd rs1 => commandWord 0x40 rd rs1 0
  | .config w => w
  | .srst v => v

/-- The register an operation is written to (R90, R98). -/
def encodePort : Instr → RegName
  | .loads _ | .loadu _ | .mul _ _ _ | .pow _ _ | .inv _ _ | .sqrt _ _ => .cmd
  | .config _ => .modulus
  | .srst _ => .ctrl

/-- The host write that issues an operation. -/
def encode (i : Instr) : RegWrite := ⟨(encodePort i).offset, encodeWord i⟩

/-! ### Words numbered as spec/opcode_table.json numbers them

The table gives a row the 32 bits of its data word and names the register a MMIO row writes outside those bits, so the
rows CONFIG (mask 0) and SRST (mask 1) match words that CMD rows match too. A table word alone is therefore read by the
most specific row that matches it: a CMD row, else SRST, else CONFIG (assumption log 4). Bits 63:32, where given and not
zero, are the byte offset the word is written to, and then no row is guessed. This lookup serves the two table functions
only: the block itself decodes a write by the register it reaches (`decodeWrite`). -/

/-- The register the most specific matching row writes. -/
def tablePort (w : Word) : RegName :=
  match decodeCmd w with
  | .legal _ => .cmd
  | .illegal _ _ => if w.getLsbD 0 then .ctrl else .modulus

/-- The host write a table word stands for. -/
def tableWrite (nbits w : Nat) : RegWrite :=
  let v := w % 2 ^ nbits
  let data := BitVec.ofNat 32 v
  if v / 2 ^ 32 = 0 then ⟨(tablePort data).offset, data⟩ else ⟨v / 2 ^ 32, data⟩

/-- The operation the decoder reads from a table word. -/
def decodeTableWord (nbits w : Nat) : Option Instr :=
  match decodeWrite (tableWrite nbits w) with
  | .operation i => some i
  | _ => none

end Sys2Proof
end

