-- ==== Sys2Proof/Machine/Operands.lean ====
section
/-! DEFINITION. The operands of a command: the residue registers its fields name and the 64-bit argument, as latched at
acceptance (spec/30_encoding.md R93, R94; spec/40_command_protocol.md R122; spec/00_scope.md R8, R12). -/

namespace Sys2Proof.Machine

/-- `x[i]` as a value (R11). -/
def State.reg (s : State) (i : Reg) : Word := s.x.get i

/-- `x[i] <- v` (R11). -/
def State.setReg (i : Reg) (v : Word) (s : State) : State := { s with x := s.x.set i.val v i.isLt }

/-- ARG_LO is ARG[31:0] (R37). -/
def argLo (arg : DWord) : Word := arg.extractLsb' 0 32

/-- ARG_HI is ARG[63:32] (R37). -/
def argHi (arg : DWord) : Word := arg.extractLsb' 32 32

/-- A write of ARG_LO replaces that word and keeps the other (R37). -/
def State.setArgLo (v : Word) (s : State) : State := { s with arg := argHi s.arg ++ v }

/-- A write of ARG_HI replaces that word and keeps the other (R37). -/
def State.setArgHi (v : Word) (s : State) : State := { s with arg := v ++ argLo s.arg }

/-- `uint64(w)`: the word read as an unsigned integer (R8). -/
def uint64 (w : DWord) : Int := (w.toNat : Int)

/-- `sint64(w) = uint64(w) - 2^64 * w[63]`: the word read as two's complement (R8). -/
def sint64 (w : DWord) : Int := uint64 w - (if w.getLsbD 63 then 2 ^ 64 else 0)

/-- The snapshot latched when command word `w` is accepted (R122): a = x[w[14:12]], b = x[w[18:16]], whatever `w` is. -/
def State.snapshot (w : Word) (s : State) : Snap where
  cmd := w
  a := s.reg (rs1Field w)
  b := s.reg (rs2Field w)
  arg := s.arg
  m := s.modulus
  P := s.modPrime
  F := s.cfgFault

end Sys2Proof.Machine
end

