-- ==== Sys2Proof/Machine/Ops.lean ====
section
/-! DEFINITION. The named operations every instruction is made of: reading and writing the register window, accepting and
dropping an operation, completing one with a result or with an error, reset (spec/40_command_protocol.md, spec/41, spec/70). -/

namespace Sys2Proof.Machine

/-! ### Reset (R45, R146, R290) -/

/-- Every piece of the block's state takes its reset value (R45); the outside world goes on. An operation in flight is
discarded and never completes. -/
def State.blockReset (s : State) : State := { State.reset with env := s.env }

/-! ### Reads (R27 to R40, R67) -/

/-- The constant of ID (R28). -/
def idValue : Word := 0x4D4F4431

/-- The word a host read of a register returns; it changes nothing (R67, R132). -/
def State.readReg (s : State) : RegName → Word
  | .id => idValue
  | .ctrl => 0
  | .status => s.status
  | .modulus => s.modulus
  | .argLo => argLo s.arg
  | .argHi => argHi s.arg
  | .cmd => s.lastcmd
  | .reserved => 0
  | .residue i => s.reg i

/-- The whole window, offset 0x00 first: what a host can observe of the block (R134). -/
def State.window (s : State) : List (Option Word) :=
  (List.range 32).map (fun k => (RegName.ofOffset (4 * k)).map s.readReg)

/-! ### Accepting and dropping (R121, R122, R130, R141) -/

/-- The words an operation has latched, its kind first: what its latency may depend on (R300). -/
def Operation.latched : Operation → List Nat
  | .config w => [0, w.toNat]
  | .command snap => [1, snap.cmd.toNat, snap.a.toNat, snap.b.toNat, snap.arg.toNat, snap.m.toNat]

/-- The completion delay of the operation now accepted: the next one given, else the free value (R73, R300). -/
def Env.drawLatency (op : Operation) (e : Env) : Env :=
  match e.latencies with
  | [] => { e with delay := Config.latency e.accepted op.latched, accepted := e.accepted + 1 }
  | d :: ds => { e with delay := d, latencies := ds, accepted := e.accepted + 1 }

/-- An operation is accepted, atomically with the write that carries it (R122, R141). -/
def State.accept (op : Operation) (s : State) : State :=
  { s.flagsAccepted with pending := some op, env := s.env.drawLatency op }

/-- A dropped write changes nothing but DROPPED (R130). -/
def State.drop (s : State) : State := { s with dropped := true }

/-- A host write of `w` to CMD: accepted whatever `w` is while BUSY = 0 (R121, R122), dropped while BUSY = 1 (R130). -/
def State.writeCmd (w : Word) (s : State) : State :=
  if s.busy then s.drop else { s.accept (.command (s.snapshot w)) with lastcmd := w }

/-- A MODULUS write can be accepted: not busy, not configured, no configuration fault (R141). -/
def State.configurable (s : State) : Bool := !s.busy && !s.cfgValid && !s.cfgFault

/-- A host write of `w` to MODULUS (R141); MODULUS still reads 0 while the configuration is in flight. -/
def State.writeModulus (w : Word) (s : State) : State :=
  if s.configurable then s.accept (.config w) else s.drop

/-- A host write of `v` to CTRL (R29, R146). -/
def State.writeCtrl (v : Word) (s : State) : State := if v.getLsbD 0 then s.blockReset else s

/-! ### Completing (R124 to R127, R143) -/

/-- How an operation ends: `finish(v)` or `raise E()` (R11). -/
inductive Result
  | finish (v : Nat)
  | raise (e : ErrorCode)
  deriving DecidableEq, Repr

/-- Raising an error: the completion step of R127. BUSY, DONE and ERRCODE are written, no residue register is, and the
engine becomes quiescent; there is no trap entry, no saved state and no vector (R260, R268). -/
def State.raiseError (e : ErrorCode) (s : State) : State := { s.flagsCompleted e.code with pending := none }

/-- The successful completion step of R126: `x[rd] <- u32(v)`, BUSY, DONE, ERRCODE and `pending` in one step. -/
def State.finishCommand (rd : Reg) (v : Nat) (s : State) : State :=
  { (s.setReg rd (BitVec.ofNat 32 v)).flagsCompleted 0 with pending := none }

/-- The completion step of a command with destination `rd` (R126, R127). -/
def State.completeCommand (rd : Reg) (r : Result) (s : State) : State :=
  match r with
  | .finish v => s.finishCommand rd v
  | .raise e => s.raiseError e

/-- The checks common to every command that decodes, before its own (R124, R125, R265). -/
def commonChecks (snap : Snap) (own : Snap → Result) : Result :=
  if snap.m = 0 then
    if snap.F then .raise .invalidModulusConfig else .raise .notConfigured
  else own snap

/-- A modulus word is legal when `2 <= uint32(w) <= 2^31 - 1` (R142). -/
def legalModulus (w : Word) : Bool := decide (2 ≤ w.toNat) && decide (w.toNat ≤ 2 ^ 31 - 1)

/-- The completion step of a configuration with written word `w` (R143); `prime` is its primality (R144). -/
def State.completeConfig (w : Word) (prime : Bool) (s : State) : State :=
  if legalModulus w then
    { s.flagsCompleted 0 with modulus := w, cfgValid := true, modPrime := prime, pending := none }
  else
    { s.raiseError .invalidModulusConfig with cfgFault := true }

/-! ### The two events of an operation's life (R120) -/

/-- What a command does at a step: on the engine's turn with a command in flight, its completion step; else the host's
write of its word to CMD (DESIGN CHOICE, assumption log 6). -/
def runCommand (i : Instr) (rd : Reg) (own : Snap → Result) (s : State) : Host.Outcome State Fault Refusal :=
  match s.env.turn, s.pending with
  | .engine, some (.command snap) => .next (s.completeCommand rd (commonChecks snap own))
  | _, _ => .next (s.writeCmd (encodeWord i))

end Sys2Proof.Machine
end

