-- ==== Sys2Proof/Machine/Configure.lean ====
section
/-! DEFINITION. CONFIG and SRST: the two operations that are register writes (spec/41_configuration.md). -/

namespace Sys2Proof.Machine

/-- CONFIG w (R140): on the engine's turn with a configuration in flight, its completion step (R143) with the exact
primality of the latched word (R144); else the host's write of `w` to MODULUS (R141; assumption log 6). -/
def execConfig (w : Word) (s : State) : Host.Outcome State Fault Refusal :=
  match s.env.turn, s.pending with
  | .engine, some (.config latched) => .next (s.completeConfig latched (isPrime latched.toNat))
  | _, _ => .next (s.writeModulus w)

/-- SRST v (R146): the host's write of `v` to CTRL; with bit 0 set it resets the whole block in the same step, in every
state. -/
def execSrst (v : Word) (s : State) : Host.Outcome State Fault Refusal := .next (s.writeCtrl v)

end Sys2Proof.Machine
end

