-- ==== Sys2Proof/Machine/Invert.lean ====
section
/-! DEFINITION. INV: modular inversion (spec/44_inversion.md). -/

namespace Sys2Proof.Machine

/-- INV's own outcome (R191): Uninvertible unless gcd(a, m) = 1, which includes a = 0 under every modulus (R194). -/
def invResult (snap : Snap) : Result :=
  if Nat.gcd snap.a.toNat snap.m.toNat = 1 then .finish (invmod snap.a.toNat snap.m.toNat) else .raise .uninvertible

/-- INV rd, rs1 (R191). -/
def execInv (rd rs1 : Reg) (s : State) : Host.Outcome State Fault Refusal := runCommand (.inv rd rs1) rd invResult s

end Sys2Proof.Machine
end

