-- ==== Sys2Proof/Machine/Load.lean ====
section
/-! DEFINITION. LOADS and LOADU: operand load and normalisation (spec/42_load.md). -/

namespace Sys2Proof.Machine

/-- LOADS's own outcome: `k = sint64(arg)`, `finish(mod(k, m))` (R161). -/
def loadsResult (snap : Snap) : Result := .finish (modInt (sint64 snap.arg) snap.m.toNat)

/-- LOADU's own outcome: `k = uint64(arg)`, `finish(mod(k, m))` (R165). -/
def loaduResult (snap : Snap) : Result := .finish (modInt (uint64 snap.arg) snap.m.toNat)

/-- LOADS rd (R161). -/
def execLoads (rd : Reg) (s : State) : Host.Outcome State Fault Refusal := runCommand (.loads rd) rd loadsResult s

/-- LOADU rd (R165). -/
def execLoadu (rd : Reg) (s : State) : Host.Outcome State Fault Refusal := runCommand (.loadu rd) rd loaduResult s

end Sys2Proof.Machine
end

