-- ==== Sys2Proof/Machine/Multiply.lean ====
section
/-! DEFINITION. MUL: the modular multiplier (spec/43_multiply.md). -/

namespace Sys2Proof.Machine

/-- MUL's own outcome: the exact product, reduced (R180, R181). -/
def mulResult (snap : Snap) : Result := .finish (snap.a.toNat * snap.b.toNat % snap.m.toNat)

/-- MUL rd, rs1, rs2 (R180). -/
def execMul (rd rs1 rs2 : Reg) (s : State) : Host.Outcome State Fault Refusal :=
  runCommand (.mul rd rs1 rs2) rd mulResult s

end Sys2Proof.Machine
end

