-- ==== Sys2Proof/Machine/Power.lean ====
section
/-! DEFINITION. POW: modular exponentiation with a signed 64-bit exponent (spec/45_exponentiation.md). -/

namespace Sys2Proof.Machine

/-- POW's own outcome (R211): `e = sint64(arg)`; a negative exponent inverts the base first and is negated exactly
(R213). -/
def powResult (snap : Snap) : Result :=
  let e := sint64 snap.arg
  let a := snap.a.toNat
  let m := snap.m.toNat
  if 0 ≤ e then .finish (powmod a e.toNat m)
  else if Nat.gcd a m = 1 then .finish (powmod (invmod a m) (-e).toNat m)
  else .raise .uninvertible

/-- POW rd, rs1 (R211). -/
def execPow (rd rs1 : Reg) (s : State) : Host.Outcome State Fault Refusal := runCommand (.pow rd rs1) rd powResult s

end Sys2Proof.Machine
end

