-- ==== Sys2Proof/Machine/SquareRoot.lean ====
section
/-! DEFINITION. SQRT: the Tonelli–Shanks square-root engine (spec/46_sqrt.md). -/

namespace Sys2Proof.Machine

/-- SQRT's own outcome (R231): the special cases n = 0 and m = 2 first (R232), then the latched primality flag, then
Euler's criterion, then the smaller root (R233). -/
def sqrtResult (snap : Snap) : Result :=
  let n := snap.a.toNat
  let m := snap.m.toNat
  if n = 0 then .finish 0
  else if m = 2 then .finish n
  else if !snap.P then .raise .notPrimeModulus
  else if powmod n ((m - 1) / 2) m ≠ 1 then .raise .notQuadraticResidue
  else .finish (sqrtmod n m)

/-- SQRT rd, rs1 (R231). -/
def execSqrt (rd rs1 : Reg) (s : State) : Host.Outcome State Fault Refusal := runCommand (.sqrt rd rs1) rd sqrtResult s

end Sys2Proof.Machine
end

