-- ==== Sys2Proof/Machine/Dispatch.lean ====
section
/-! DEFINITION. The dispatch: one arm per operation, each one direct call of its meaning. -/

namespace Sys2Proof.Machine

def exec (i : Instr) (s : State) : Host.Outcome State Fault Refusal :=
  match i with
  | .loads rd => Sys2Proof.Machine.execLoads rd s
  | .loadu rd => Sys2Proof.Machine.execLoadu rd s
  | .mul rd rs1 rs2 => Sys2Proof.Machine.execMul rd rs1 rs2 s
  | .pow rd rs1 => Sys2Proof.Machine.execPow rd rs1 s
  | .inv rd rs1 => Sys2Proof.Machine.execInv rd rs1 s
  | .sqrt rd rs1 => Sys2Proof.Machine.execSqrt rd rs1 s
  | .config w => Sys2Proof.Machine.execConfig w s
  | .srst v => Sys2Proof.Machine.execSrst v s

end Sys2Proof.Machine
end

