-- ==== Sys2Proof/Machine/Engine.lean ====
section
/-! DEFINITION. The engine's one step: the completion of the operation in flight (spec/40_command_protocol.md R124, R129). -/

namespace Sys2Proof.Machine

/-- `exec(snap)` of R124 from its first check on: the latched word is decoded; an illegal word raises IllegalCommand
before any other check (R265), a legal one runs its command. -/
def completeCommandWord (snap : Snap) (s : State) : Host.Outcome State Fault Refusal :=
  match decodeCmd snap.cmd with
  | .legal i => exec i s
  | .illegal _ _ => .next (s.raiseError .illegalCommand)

/-- The completion step of the operation in flight (R126, R127, R143). -/
def completeOperation (op : Operation) (s : State) : Host.Outcome State Fault Refusal :=
  match op with
  | .config w => exec (.config w) s
  | .command snap => completeCommandWord snap s

end Sys2Proof.Machine
end

