-- ==== Sys2Proof/Machine/HostPort.lean ====
section
/-! DEFINITION. The host's side: accesses to the register window, the wait loop, the reset input
(spec/20_memory.md, spec/40_command_protocol.md R132, R133, spec/70_reset_and_hazards.md R290). -/

namespace Sys2Proof.Machine

/-- The platform address of a window offset, and back (R60; accesses carry the offset, assumption log 9). -/
def addressOf (offset : Int) : Int := (Config.base : Int) + offset

/-- The offset from BASE of a platform address. -/
def offsetOf (address : Nat) : Int := (address : Int) - (Config.base : Int)

/-- The register a defined access reaches, or why the model refuses the access (R62, R63, R133, R290). Which reason
is named where several hold is the model's order (DESIGN CHOICE, assumption log 10). -/
def accessTarget (offset : Int) (bytes : Nat) (s : State) : Except Refusal RegName :=
  if s.env.resetLine then .error .accessDuringReset
  else if bytes ≠ 4 then .error .undefinedWidth
  else if offset % 4 ≠ 0 then .error .misaligned
  else if offset < 0 ∨ 0x80 ≤ offset then .error .outsideWindow
  else
    match RegName.ofOffset offset.toNat with
    | some r => .ok r
    | none => .error .outsideWindow

/-- A read returns the register's word to the host and changes nothing else (R67, R132). -/
def State.hostRead (r : RegName) (s : State) : State :=
  { s with env := { s.env with reads := s.readReg r :: s.env.reads } }

/-- A 32-bit write to a register of the window (R68). -/
def writeReg (r : RegName) (v : Word) (s : State) : Host.Outcome State Fault Refusal :=
  match decodeRegWrite r v with
  | .operation i => exec i s
  | .illegalCommand w _ => .next (s.writeCmd w)
  | .setArgLo w => .next (s.setArgLo w)
  | .setArgHi w => .next (s.setArgHi w)
  | .ignored => .next s
  | .undefinedAccess => .refused .outsideWindow

/-- One host access is served completely (R71). -/
def serveAccess (a : Access) (s : State) : Host.Outcome State Fault Refusal :=
  match accessTarget a.offset a.bytes s with
  | .error r => .refused r
  | .ok r =>
    match a.kind with
    | .read => .next (s.hostRead r)
    | .write => writeReg r a.data s

/-- The host's next actions become `es`. -/
def State.withEvents (es : List Event) (s : State) : State := { s with env := { s.env with events := es } }

/-- What stands beside the block becomes `e`. -/
def State.withEnv (e : Env) (s : State) : State := { s with env := e }

/-- One pass of the host's wait loop: a STATUS read, and the loop goes on while BUSY = 1 (R101, R302). Between two passes
an arrival may come, a reset among them, which ends the loop (R302). -/
def servePoll (s : State) : Host.Outcome State Fault Refusal :=
  match accessTarget 0x08 4 s with
  | .error r => .refused r
  | .ok _ => .next ((s.hostRead .status).withEvents (if s.busy then .poll :: s.env.events else s.env.events))

/-- The host reads a register and issues nothing more if the bits of `mask` read `value` (R102, `DIV`;
assumption log 13). -/
def serveStopIf (offset : Int) (mask value : Word) (s : State) : Host.Outcome State Fault Refusal :=
  match accessTarget offset 4 s with
  | .error r => .refused r
  | .ok r => .next ((s.hostRead r).withEvents (if s.readReg r &&& mask = value then [] else s.env.events))

/-- The hardware reset input rises: the same effect as SRST, in one step (R290; assumption log 8). -/
def State.assertReset (s : State) : State := { s.blockReset with env := { s.env with resetLine := true } }

/-- The hardware reset input falls. -/
def State.releaseReset (s : State) : State := { s with env := { s.env with resetLine := false } }

/-- One event of the outside world, already taken from what is to come. -/
def serveEvent (e : Event) (s : State) : Host.Outcome State Fault Refusal :=
  match e with
  | .access a => serveAccess a s
  | .poll => servePoll s
  | .stopIf offset mask value => serveStopIf offset mask value s
  | .assertReset => .next s.assertReset
  | .releaseReset => .next s.releaseReset

/-- One turn of the outside world nearer to the next arrival. -/
def countDown : List (Nat × Event) → List (Nat × Event)
  | [] => []
  | (n, e) :: more => (n - 1, e) :: more

/-- The outside world's turn in which nothing is served: the next arrival is one turn nearer. -/
def Env.idle (e : Env) : Env := { e with arrivals := countDown e.arrivals }

/-- The outside world's next event and what stands beside the block once it is taken: an arrival that is due, else the
host's next action, the next arrival being then one turn nearer (assumption log 14). -/
def Env.next (e : Env) : Option (Event × Env) :=
  match e.arrivals, e.events with
  | (0, a) :: more, _ => some (a, { e with arrivals := more })
  | arrivals, h :: rest => some (h, { e with arrivals := countDown arrivals, events := rest })
  | _, [] => none

/-- The outside world's turn: its next event is served; where there is none the step changes nothing of the block
(DESIGN CHOICE, assumption log 7). -/
def hostTurn (s : State) : Host.Outcome State Fault Refusal :=
  match s.env.next with
  | none => .next (s.withEnv s.env.idle)
  | some (e, after) => serveEvent e (s.withEnv after)

/-! ### Host operations (R101) -/

/-- `W off, v`: `MemWrite(BASE + off, 4, v)`. -/
def Event.W (off : Nat) (v : Word) : Event := .access ⟨.write, off, 4, v⟩

/-- `R off`: `MemRead(BASE + off, 4)`. -/
def Event.R (off : Nat) : Event := .access ⟨.read, off, 4, 0⟩

/-- `C cmd`: `W 0x18, <word of cmd>`, then `POLL`. -/
def Event.C (i : Instr) : List Event := [Event.W 0x18 (encodeWord i), .poll]

/-- `W ARG_LO, k[31:0]; W ARG_HI, k[63:32]`, the halves of k's 64-bit two's complement form (R102). -/
def loadArg (k : Int) : List Event :=
  [Event.W 0x10 (argLo (BitVec.ofInt 64 k)), Event.W 0x14 (argHi (BitVec.ofInt 64 k))]

/-- The expansions of R102. -/
def expand : Pseudo → List Event
  | .setmod v => [Event.W 0x0C v, .poll]
  | .li rd k => loadArg k ++ Event.C (.loads rd)
  | .liu rd k => loadArg k ++ Event.C (.loadu rd)
  | .mov rd rs => loadArg 1 ++ Event.C (.pow rd rs)
  | .sqr rd rs => Event.C (.mul rd rs rs)
  | .powi rd rs k => loadArg k ++ Event.C (.pow rd rs)
  | .div rd rs1 rs2 rt => Event.C (.inv rt rs2) ++ [.stopIf 0x08 0x4 0x4] ++ Event.C (.mul rd rs1 rt)

end Sys2Proof.Machine
end

