-- ==== Sys2Proof/Machine/Schedule.lean ====
section
/-! DEFINITION. Who moves next (spec/20_memory.md R73, spec/40_command_protocol.md R129, R134). -/

namespace Sys2Proof.Machine

/-- Nothing is to come from the outside world. -/
def Env.quiet (e : Env) : Bool := e.events.isEmpty && e.arrivals.isEmpty

/-- The agent of the next step. The engine can move only while an operation is in flight (R129). It moves at once where
nothing is to come from the outside world, or where the operation's delay is spent; else the outside world's turn comes
first and the delay is one less (DESIGN CHOICE, assumption log 2). -/
def State.schedule (s : State) : State :=
  match s.pending, s.env.quiet, s.env.delay with
  | none, _, _ => { s with env := { s.env with turn := .host } }
  | some _, true, _ => { s with env := { s.env with turn := .engine } }
  | some _, false, 0 => { s with env := { s.env with turn := .engine } }
  | some _, false, d + 1 => { s with env := { s.env with turn := .host, delay := d } }

/-- Applies `f` to the next state of an outcome. -/
def mapNext (f : State → State) : Host.Outcome State Fault Refusal → Host.Outcome State Fault Refusal
  | .next s => .next (f s)
  | .fault r => .fault r
  | .refused r => .refused r

/-- The block is quiescent: it has no enabled step of its own (R134). -/
def State.quiescent (s : State) : Bool := s.pending.isNone

/-- An event that is no action of the host: an edge of the reset input. -/
def Event.isResetEdge : Event → Bool
  | .assertReset | .releaseReset => true
  | .access _ | .poll | .stopIf _ _ _ => false

/-- A run has ended: the host has issued its last access and the block is quiescent (R134). R134 does not say whether a
reset edge still to come after that belongs to the run: in this model it does not, nor does any other arrival (DESIGN
CHOICE, assumption log 15). -/
def State.runEnded (s : State) : Bool := s.quiescent && s.env.events.all Event.isResetEdge

end Sys2Proof.Machine
end

