-- ==== Sys2Proof/Machine/Step.lean ====
section
/-! DEFINITION. One step of the machine (spec/40_command_protocol.md R132): a host access, the engine's completion, or a
reset edge, each atomic. -/

namespace Sys2Proof.Machine

/-- One step: on the engine's turn with an operation in flight, its completion (R129); else the host's turn. Then the
agent of the next step is fixed. -/
def step (s : State) : Host.Outcome State Fault Refusal :=
  match s.env.turn, s.pending with
  | .engine, some op => mapNext State.schedule (completeOperation op s)
  | _, _ => mapNext State.schedule (hostTurn s)

/-- `s` with the table word's register write due at once, before all else that is to come, on the host's turn and with the
reset input released, so that the next step serves exactly it (assumption log 4). -/
def State.withFetchWord (s : State) (nbits w : Nat) : State :=
  let r := tableWrite nbits w
  { s with env := { s.env with turn := .host, resetLine := false, arrivals := (0, Event.W r.off r.data) :: s.env.arrivals } }

end Sys2Proof.Machine
end

