-- ==== Sys2Proof/Machine/Assembler.lean ====
section
/-! DEFINITION. The assembler syntax of command words (spec/30_encoding.md R100): `MNEMONIC operands`, operands separated by
commas, the destination first, registers r0 to r7 in either case (where spaces may stand: assumption log 12). -/

namespace Sys2Proof.Machine

/-- The spelling of a register. -/
def regText (r : Reg) : List Char := ['r', Char.ofNat (48 + r.val)]

/-- Operands separated by a comma and a space. -/
def operandText : List Reg → List Char
  | [] => []
  | [r] => regText r
  | r :: rs => regText r ++ [',', ' '] ++ operandText rs

/-- The text of a command (R100); CONFIG and SRST are register writes and have no command syntax (R98). -/
def asmText : Instr → Option (List Char)
  | .loads rd => some ("LOADS ".toList ++ operandText [rd])
  | .loadu rd => some ("LOADU ".toList ++ operandText [rd])
  | .mul rd rs1 rs2 => some ("MUL ".toList ++ operandText [rd, rs1, rs2])
  | .pow rd rs1 => some ("POW ".toList ++ operandText [rd, rs1])
  | .inv rd rs1 => some ("INV ".toList ++ operandText [rd, rs1])
  | .sqrt rd rs1 => some ("SQRT ".toList ++ operandText [rd, rs1])
  | .config _ | .srst _ => none

/-- A line's characters up to the first that satisfies `p`, and those after it (none where no character does). -/
def cutAt (p : Char → Bool) : List Char → List Char × Option (List Char)
  | [] => ([], none)
  | c :: cs => if p c then ([], some cs) else let r := cutAt p cs; (c :: r.1, r.2)

/-- One operand: `r` or `R` and a digit 0 to 7, spaces before and after allowed. -/
def parseReg (cs : List Char) : Option Reg :=
  match cs.filter (· != ' ') with
  | [c, d] =>
    if (c == 'r' || c == 'R') && decide (48 ≤ d.toNat) && decide (d.toNat < 56) then some (Fin.ofNat 8 (d.toNat - 48))
    else none
  | _ => none

/-- Operands separated by commas; `fuel` bounds their number. -/
def parseOperands : Nat → List Char → Option (List Reg)
  | 0, _ => none
  | fuel + 1, cs =>
    match cutAt (· == ',') cs with
    | (one, none) => (parseReg one).map ([·])
    | (one, some more) =>
      match parseReg one, parseOperands fuel more with
      | some r, some rs => some (r :: rs)
      | _, _ => none

/-- The command a line of assembly stands for; none where the line is not in R100's syntax. -/
def assemble (line : List Char) : Option Instr :=
  match cutAt (· == ' ') line with
  | (_, none) => none
  | (mnemonic, some rest) =>
    match String.ofList mnemonic, parseOperands 4 rest with
    | "LOADS", some [rd] => some (.loads rd)
    | "LOADU", some [rd] => some (.loadu rd)
    | "MUL", some [rd, rs1, rs2] => some (.mul rd rs1 rs2)
    | "POW", some [rd, rs1] => some (.pow rd rs1)
    | "INV", some [rd, rs1] => some (.inv rd rs1)
    | "SQRT", some [rd, rs1] => some (.sqrt rd rs1)
    | _, _ => none

end Sys2Proof.Machine
end

