-- ==== Sys2Proof/Safety.lean ====
section
/-! DEFINITION. What claims about runs speak of: the invariant of the block, reachability, safe steps, and runs of a
number of steps. -/

namespace Sys2Proof.Machine

/-- The error codes a state can hold (R261): 0 or the code of an error of the model; codes 3 and 8 to 15 are reserved. -/
def validErrcode (c : BitVec 4) : Bool := [0, 1, 2, 4, 5, 6, 7].contains c

/-- The operation in flight agrees with the registers it was latched from (R122, R141): no engine or host step between
acceptance and completion changes any of them but ARG. -/
def pendingAgrees (s : State) : Option Operation → Prop
  | none => True
  | some (.config _) => s.cfgValid = false ∧ s.cfgFault = false
  | some (.command snap) =>
    snap.cmd = s.lastcmd ∧ snap.a = s.reg (rs1Field snap.cmd) ∧ snap.b = s.reg (rs2Field snap.cmd)
      ∧ snap.m = s.modulus ∧ snap.P = s.modPrime ∧ snap.F = s.cfgFault

/-- The block's state is that of R45. -/
def State.isReset (s : State) : Bool := s.blockReset == s

/-- The invariant of the machine. Each field names the rule it is. -/
structure State.Inv (s : State) : Prop where
  /-- R31: BUSY = 1 exactly when an operation is in flight. -/
  busy_pending : s.busy = s.pending.isSome
  /-- R32: DONE and BUSY are never 1 together. -/
  done_not_busy : s.busy = true → s.done = false
  /-- R32: with DONE = 0 and BUSY = 0 no operation has been accepted since reset: all but ARG holds its reset value. -/
  fresh : s.busy = false → s.done = false → { s with arg := 0 }.isReset = true
  /-- R33: while BUSY = 1, ERRCODE = 0. -/
  busy_no_error : s.busy = true → s.errcode = 0
  /-- R261: no reserved code. -/
  errcode_valid : validErrcode s.errcode = true
  /-- R34: at most one of CFG_VALID and CFG_FAULT. -/
  not_valid_and_fault : s.cfgValid = true → s.cfgFault = false
  /-- R34: MOD_PRIME = 1 implies CFG_VALID = 1. -/
  prime_valid : s.modPrime = true → s.cfgValid = true
  /-- R36: MODULUS is 0 while unconfigured. -/
  modulus_unconfigured : s.cfgValid = false → s.modulus = 0
  /-- R5, R142: a configured modulus is legal. -/
  modulus_legal : s.cfgValid = true → legalModulus s.modulus = true
  /-- R144: MOD_PRIME is the exact primality of the modulus. -/
  prime_exact : s.cfgValid = true → s.modPrime = isPrime s.modulus.toNat
  /-- R25: before configuration every residue register holds 0. -/
  residue_unconfigured : s.cfgValid = false → ∀ i, s.reg i = 0
  /-- R23: a configured residue is below the modulus. -/
  residue_reduced : s.cfgValid = true → ∀ i, (s.reg i).toNat < s.modulus.toNat
  /-- R122, R141: the operation in flight agrees with the registers. -/
  pending_agrees : pendingAgrees s s.pending
  /-- R290: while the reset input is asserted the block stays in its reset state. -/
  held_in_reset : s.env.resetLine = true → s.isReset = true

/-- The machine can come to `t` from `s` in any number of steps. -/
inductive Reaches : State → State → Prop
  | here (s : State) : Reaches s s
  | later {s t u : State} : Reaches s t → step t = .next u → Reaches s u

/-- The block right after reset, whatever the outside world is about to do and however long operations take. -/
def State.start (events : List Event) (arrivals : List (Nat × Event)) (latencies : List Nat) : State :=
  { State.reset with env := { Env.reset with events := events, arrivals := arrivals, latencies := latencies } }

/-- `n` steps, stopping at the first that gives no next state. -/
def runSteps : Nat → State → Host.Outcome State Fault Refusal
  | 0, s => .next s
  | n + 1, s =>
    match step s with
    | .next t => runSteps n t
    | .fault r => .fault r
    | .refused r => .refused r

/-- A step that goes on: safety is that no step is refused. -/
def State.stepsSafely (s : State) : Prop := ∃ t, step s = .next t

/-- An event is defined on this block: its accesses are 32 bits wide, aligned and inside the window (R62). -/
def Event.isDefined : Event → Bool
  | .access a => a.bytes == 4 && (RegName.ofOffset a.offset.toNat).isSome && decide (0 ≤ a.offset)
  | .stopIf offset _ _ => (RegName.ofOffset offset.toNat).isSome && decide (0 ≤ offset)
  | .poll | .assertReset | .releaseReset => true

end Sys2Proof.Machine
end

