-- ==== Sys2Proof/Certificates/Slice0/Obligations.lean ====
section
/-! DEFINITION. The statements for the provers, from the spec's numbered rules. A statement whose conclusion is an equality
`exec i s = .next { s with … }` says the result AND the frame: every field not named is that of `s`. -/

namespace Sys2Proof.Machine

/-! ### What the statements speak of -/

/-- The engine is about to complete the command with snapshot `snap`. -/
def State.completing (s : State) (snap : Snap) : Prop :=
  s.env.turn = .engine ∧ s.pending = some (.command snap)

/-- The state after a command succeeds with value `v` (R126): all but the destination, BUSY, DONE, ERRCODE and the
operation in flight is unchanged. -/
def State.succeeded (s : State) (rd : Reg) (v : Nat) : State :=
  { s with x := s.x.set rd.val (BitVec.ofNat 32 v) rd.isLt, busy := false, done := true, errcode := 0, pending := none }

/-- The state after a command fails with an error code (R127): all but BUSY, DONE, ERRCODE and the operation in flight is
unchanged; no residue register is written. -/
def State.failed (s : State) (code : BitVec 4) : State :=
  { s with busy := false, done := true, errcode := code, pending := none }

/-- The snapshot of a configured engine: a legal modulus, residue operands, and the exact primality flag (R5, R23, R144). -/
def Snap.configured (snap : Snap) : Prop :=
  2 ≤ snap.m.toNat ∧ snap.m.toNat ≤ 2 ^ 31 - 1 ∧ snap.a.toNat < snap.m.toNat ∧ snap.b.toNat < snap.m.toNat ∧
    (snap.P = true ↔ Nat.Prime snap.m.toNat)

/-- A snapshot with operands `a`, `b`, argument `k` (in the 64-bit range) and modulus `m`. -/
def Snap.of (a b : Nat) (k : Int) (m : Nat) (P : Bool) : Snap :=
  { cmd := 0, a := BitVec.ofNat 32 a, b := BitVec.ofNat 32 b, arg := BitVec.ofInt 64 k, m := BitVec.ofNat 32 m, P := P,
    F := false }

/-- `POW(a, k)` for the result of R211, under modulus `m`. -/
def powOf (a m : Nat) (k : Int) : Result := powResult (Snap.of a 0 k m false)

/-- `INV(a)` for the result of R191, under modulus `m`. -/
def invOf (a m : Nat) : Result := invResult (Snap.of a 0 0 m false)

/-- `MUL(a, b)` for the result of R180, under modulus `m`. -/
def mulOf (a b m : Nat) : Result := mulResult (Snap.of a b 0 m false)

/-- `SQRT(n)` for the result of R231, under a prime modulus `m`. -/
def sqrtOf (n m : Nat) : Result := sqrtResult (Snap.of n 0 0 m true)

/-- It is the outside world's turn, its next event is `e`, and `after` stands beside the block once it is taken. -/
def State.about (s : State) (e : Event) (after : Env) : Prop :=
  s.env.turn = .host ∧ s.env.next = some (e, after)

/-- The block's part of two states is the same; what stands beside the block may differ. -/
def State.sameBlock (s t : State) : Prop := { t with env := s.env } = s

end Sys2Proof.Machine

open Sys2Proof Sys2Proof.Machine

/-! ### Encoding (spec/30_encoding.md) -/

/-- R95, R98, R99, both ways: decoding the host write that encodes a well-formed operation gives the operation, and a
register write that decodes to an operation is the encoding of it, to that operation's register, bit for bit. -/
def Obligations.DecodeAndEncodeAgree : Prop :=
  (∀ i : Instr, i.wellFormed = true → decodeWrite (encode i) = .operation i) ∧
  (∀ (r : RegName) (v : Word) (i : Instr), decodeRegWrite r v = .operation i →
    encodePort i = r ∧ encodeWord i = v ∧ i.wellFormed = true)

/-- Words written out from R91, R95, R98 and R99, and the words of R96's and R97's examples. That each of the last three is
illegal is the spec's; the names of the two causes are the model's (assumption log 16). -/
def Obligations.SpecWordsDecode : Prop :=
  decodeCmd 0b00000000000000000000010100000001 = .legal (.loads 5) ∧
  decodeCmd 0b00000000000000000000011100000010 = .legal (.loadu 7) ∧
  decodeCmd 0b00000000000000100000001100010000 = .legal (.mul 3 0 2) ∧
  decodeCmd 0b00000000000000000000000100100000 = .legal (.pow 1 0) ∧
  decodeCmd 0b00000000000000000001001000110000 = .legal (.inv 2 1) ∧
  decodeCmd 0b00000000000000000110011101000000 = .legal (.sqrt 7 6) ∧
  decodeRegWrite .modulus 0x3B9ACA07 = .operation (.config 0x3B9ACA07) ∧
  decodeRegWrite .ctrl 0xFFFFFFFF = .operation (.srst 0xFFFFFFFF) ∧
  decodeRegWrite .ctrl 0xFFFFFFFE = .ignored ∧
  decodeCmd 0x00001001 = .illegal 0x00001001 .nonzeroFixedBit ∧
  decodeCmd 0x00080010 = .illegal 0x00080010 .nonzeroFixedBit ∧
  decodeCmd 0x00000000 = .illegal 0x00000000 .unassignedOpcode

/-- R95: a word is a command exactly when (w AND mask) = match for that command's row, and no two rows match one word. -/
def Obligations.OpcodeRowsDecideCommands : Prop :=
  ∀ w : Word,
    (decodeCmd w = .legal (.loads (rdField w)) ↔ w &&& 0xFFFFF8FF = 0x00000001) ∧
    (decodeCmd w = .legal (.loadu (rdField w)) ↔ w &&& 0xFFFFF8FF = 0x00000002) ∧
    (decodeCmd w = .legal (.mul (rdField w) (rs1Field w) (rs2Field w)) ↔ w &&& 0xFFF888FF = 0x00000010) ∧
    (decodeCmd w = .legal (.pow (rdField w) (rs1Field w)) ↔ w &&& 0xFFFF88FF = 0x00000020) ∧
    (decodeCmd w = .legal (.inv (rdField w) (rs1Field w)) ↔ w &&& 0xFFFF88FF = 0x00000030) ∧
    (decodeCmd w = .legal (.sqrt (rdField w) (rs1Field w)) ↔ w &&& 0xFFFF88FF = 0x00000040)

/-- R96, R97: an unassigned OPC is illegal by that name whatever the other bits, a word with an assigned OPC and a 1 in a
bit its format fixes to 0 is illegal by that name, and an illegal word is kept whole. The two names of the causes are the
model's (assumption log 16). -/
def Obligations.UnassignedWordsAreIllegal : Prop :=
  ∀ w : Word,
    ((¬ ∃ opc ∈ [0x01, 0x02, 0x10, 0x20, 0x30, 0x40], w.toNat % 256 = opc) → decodeCmd w = .illegal w .unassignedOpcode) ∧
    ((w.toNat % 256 = 0x01 ∨ w.toNat % 256 = 0x02) → w &&& 0xFFFFF800 ≠ 0 → decodeCmd w = .illegal w .nonzeroFixedBit) ∧
    ((w.toNat % 256 = 0x20 ∨ w.toNat % 256 = 0x30 ∨ w.toNat % 256 = 0x40) → w &&& 0xFFFF8800 ≠ 0 →
      decodeCmd w = .illegal w .nonzeroFixedBit) ∧
    (w.toNat % 256 = 0x10 → w &&& 0xFFF88800 ≠ 0 → decodeCmd w = .illegal w .nonzeroFixedBit)

/-- R100: assembling the text of a command gives the command; the two register writes have no command text (R98). -/
def Obligations.AssemblyTextGivesCommand : Prop :=
  (∀ (i : Instr) (text : List Char), asmText i = some text → assemble text = some i) ∧
  (∀ i : Instr, asmText i = none ↔ encodePort i ≠ .cmd)

/-- R65: lane k carries bits 8k+7 : 8k, and the decoder reads a write's word from its four lanes; any other number of
bytes is no defined access (R62, R63). -/
def Obligations.ByteLanesCarryTheWord : Prop :=
  (∀ (w : Word) (k j : Nat), k < 4 → j < 8 → (byteLane k w).getLsbD j = w.getLsbD (8 * k + j)) ∧
  (∀ (off : Nat) (w : Word), decodeBytes off (wordToLanes w) = decodeWrite ⟨off, w⟩) ∧
  (∀ (off : Nat) (bs : List Byte), bs.length ≠ 4 → decodeBytes off bs = .undefinedAccess)

/-! ### The register window (spec/10_state.md, spec/20_memory.md) -/

/-- R27, R28, R29, R36 to R40: what a read of each offset of the window returns. -/
def Obligations.WindowReadsByOffset : Prop :=
  ∀ s : State,
    (RegName.ofOffset 0x00).map s.readReg = some 0x4D4F4431 ∧
    (RegName.ofOffset 0x04).map s.readReg = some 0 ∧
    (RegName.ofOffset 0x08).map s.readReg = some s.status ∧
    (RegName.ofOffset 0x0C).map s.readReg = some s.modulus ∧
    (RegName.ofOffset 0x10).map s.readReg = some (s.arg.extractLsb' 0 32) ∧
    (RegName.ofOffset 0x14).map s.readReg = some (s.arg.extractLsb' 32 32) ∧
    (RegName.ofOffset 0x18).map s.readReg = some s.lastcmd ∧
    (RegName.ofOffset 0x1C).map s.readReg = some 0 ∧
    (∀ i : Reg, (RegName.ofOffset (0x20 + 4 * i.val)).map s.readReg = some (s.x.get i)) ∧
    (∀ off : Nat, 0x40 ≤ off → off < 0x80 → off % 4 = 0 → (RegName.ofOffset off).map s.readReg = some 0) ∧
    (∀ off : Nat, (RegName.ofOffset off).isSome = true ↔ off % 4 = 0 ∧ off < 0x80)

/-- R30: the fields of STATUS, with ERR = (ERRCODE != 0), and the reserved bits 7 and 31:12 read 0. -/
def Obligations.StatusWordFields : Prop :=
  ∀ s : State,
    s.status.getLsbD 0 = s.busy ∧ s.status.getLsbD 1 = s.done ∧ s.status.getLsbD 2 = (s.errcode != 0) ∧
    s.status.getLsbD 3 = s.cfgValid ∧ s.status.getLsbD 4 = s.modPrime ∧ s.status.getLsbD 5 = s.cfgFault ∧
    s.status.getLsbD 6 = s.dropped ∧ s.status.getLsbD 7 = false ∧ s.status.extractLsb' 8 4 = s.errcode ∧
    (∀ k, 12 ≤ k → s.status.getLsbD k = false)

/-- R67: a read of any register of the window returns its word, changes nothing in the block, and so leaves what every
later read returns as it was. -/
def Obligations.ReadsHaveNoSideEffect : Prop :=
  ∀ (s : State) (off : Nat) (r : RegName) (after : Env), RegName.ofOffset off = some r →
    s.env.resetLine = false → s.about (Event.R off) after →
      ∃ t, step s = .next t ∧ t.env.reads = s.readReg r :: s.env.reads ∧ s.sameBlock t ∧
        ∀ q : RegName, t.readReg q = s.readReg q

/-- R28, R30, R39, R40 and R29's last clause: a write to ID, STATUS, a residue register or a reserved offset, and a CTRL
write with bit 0 clear, change nothing at all. -/
def Obligations.IgnoredWritesChangeNothing : Prop :=
  ∀ (s : State) (v : Word),
    (∀ r : RegName, r.access = .readOnly → writeReg r v s = .next s) ∧
    (v.getLsbD 0 = false → writeReg .ctrl v s = .next s)

/-- R37: a write of ARG_LO or ARG_HI replaces that word, keeps the other, and changes nothing else, in any state, also
while an operation is in flight. -/
def Obligations.ArgWritesReplaceOneWord : Prop :=
  ∀ (s : State) (v : Word),
    (∃ t, writeReg .argLo v s = .next t ∧ t.readReg .argLo = v ∧ t.readReg .argHi = s.readReg .argHi ∧
      t = { s with arg := t.arg }) ∧
    (∃ t, writeReg .argHi v s = .next t ∧ t.readReg .argHi = v ∧ t.readReg .argLo = s.readReg .argLo ∧
      t = { s with arg := t.arg })

/-- R37: "No operation writes ARG" (a reset is the one exception, and SRST is that reset). -/
def Obligations.NoOperationWritesArg : Prop :=
  ∀ (i : Instr) (s t : State), exec i s = .next t → t.arg = s.arg ∨ (∃ v, i = .srst v ∧ t.arg = 0)

/-! ### Issue: acceptance and dropped writes (spec/40_command_protocol.md, spec/41_configuration.md) -/

/-- R122: acceptance of a CMD write, on the host's turn with BUSY = 0, latches the snapshot and writes LASTCMD, BUSY, DONE
and ERRCODE; nothing else of the block changes; later ARG writes and reads leave the operation alone. -/
def Obligations.CommandWriteIsAccepted : Prop :=
  ∀ (s : State) (w : Word), s.env.turn = .host → s.busy = false →
    ∃ t, writeReg .cmd w s = .next t ∧
      t = { s with
        pending := some (.command
          { cmd := w, a := s.x.get (rs1Field w), b := s.x.get (rs2Field w), arg := s.arg, m := s.modulus, P := s.modPrime,
            F := s.cfgFault }),
        lastcmd := w, busy := true, done := false, errcode := 0, env := t.env } ∧
      t.env.turn = s.env.turn ∧ t.env.events = s.env.events ∧ t.env.reads = s.env.reads ∧
      (∀ v, (t.setArgLo v).pending = t.pending ∧ (t.setArgHi v).pending = t.pending) ∧
      (∀ r, (t.hostRead r).pending = t.pending)

/-- R141: a MODULUS write is accepted when BUSY, CFG_VALID and CFG_FAULT are 0, and MODULUS still reads 0 while it is in
flight; in every other case it is dropped. -/
def Obligations.ModulusWriteIsAcceptedOnce : Prop :=
  ∀ (s : State) (w : Word), s.Inv → s.env.turn = .host →
    (s.busy = false ∧ s.cfgValid = false ∧ s.cfgFault = false →
      ∃ t, exec (.config w) s = .next t ∧
        t = { s with pending := some (.config w), busy := true, done := false, errcode := 0, env := t.env } ∧
        t.readReg .modulus = 0 ∧ t.lastcmd = s.lastcmd ∧ t.env.events = s.env.events ∧ t.env.reads = s.env.reads) ∧
    (¬ (s.busy = false ∧ s.cfgValid = false ∧ s.cfgFault = false) →
      exec (.config w) s = .next { s with dropped := true })

/-- R130: a CMD write while BUSY = 1, and a MODULUS write while BUSY, CFG_VALID or CFG_FAULT is 1, change nothing but
DROPPED. -/
def Obligations.DroppedWriteChangesOnlyDropped : Prop :=
  ∀ (s : State) (w : Word), s.env.turn = .host →
    (s.busy = true → writeReg .cmd w s = .next { s with dropped := true }) ∧
    (s.busy = true ∨ s.cfgValid = true ∨ s.cfgFault = true → writeReg .modulus w s = .next { s with dropped := true })

/-- On the host's turn each operation is the register write of its word: the six commands a CMD write, CONFIG a MODULUS
write, SRST a CTRL write (R90, R98, R132). Each answers a next state. -/
def Obligations.OperationsIssueAsRegisterWrites : Prop :=
  ∀ (i : Instr) (s : State), i.wellFormed = true → s.env.turn = .host →
    exec i s = writeReg (encodePort i) (encodeWord i) s ∧ ∃ t, exec i s = .next t

/-! ### The commands' results (spec/42_load.md to spec/46_sqrt.md) -/

/-- R161: LOADS completes with the one v in [0, m) that differs from `sint64(ARG)` by a multiple of m. -/
def Obligations.LoadsNormalisesSignedArgument : Prop :=
  ∀ (s : State) (snap : Snap) (rd : Reg), s.completing snap → snap.configured →
    ∃ v : Nat, v < snap.m.toNat ∧ (snap.m.toNat : Int) ∣ snap.arg.toInt - v ∧
      exec (.loads rd) s = .next (s.succeeded rd v)

/-- R165: LOADU completes with the one v in [0, m) that differs from `uint64(ARG)` by a multiple of m. -/
def Obligations.LoaduNormalisesUnsignedArgument : Prop :=
  ∀ (s : State) (snap : Snap) (rd : Reg), s.completing snap → snap.configured →
    ∃ v : Nat, v < snap.m.toNat ∧ (snap.m.toNat : Int) ∣ (snap.arg.toNat : Int) - v ∧
      exec (.loadu rd) s = .next (s.succeeded rd v)

/-- R180, R181: MUL completes with the exact product of the latched operands, reduced modulo m, a residue; the 32-bit
register holds it without loss. -/
def Obligations.MulWritesReducedExactProduct : Prop :=
  ∀ (s : State) (snap : Snap) (rd rs1 rs2 : Reg), s.completing snap → snap.configured →
    ∃ t, exec (.mul rd rs1 rs2) s = .next t ∧
      t = s.succeeded rd (snap.a.toNat * snap.b.toNat % snap.m.toNat) ∧
      (t.reg rd).toNat = snap.a.toNat * snap.b.toNat % snap.m.toNat ∧ (∀ j, j ≠ rd → t.reg j = s.reg j)

/-- R211: POW with `e = sint64(ARG)`: `a^e` for e >= 0 (so 1 for e = 0); the power -e of the inverse for e < 0 when
gcd(a, m) = 1, with -e exact; else Uninvertible (2). -/
def Obligations.PowRaisesToSignedExponent : Prop :=
  ∀ (s : State) (snap : Snap) (rd rs1 : Reg), s.completing snap → snap.configured →
    (0 ≤ snap.arg.toInt →
      exec (.pow rd rs1) s = .next (s.succeeded rd (snap.a.toNat ^ snap.arg.toInt.toNat % snap.m.toNat))) ∧
    (snap.arg.toInt < 0 → Nat.gcd snap.a.toNat snap.m.toNat = 1 →
      ∃ y, y < snap.m.toNat ∧ snap.a.toNat * y % snap.m.toNat = 1 ∧
        exec (.pow rd rs1) s = .next (s.succeeded rd (y ^ (-snap.arg.toInt).toNat % snap.m.toNat))) ∧
    (snap.arg.toInt < 0 → Nat.gcd snap.a.toNat snap.m.toNat ≠ 1 → exec (.pow rd rs1) s = .next (s.failed 2))

/-- R191: INV completes with the one y in [0, m) with a*y = 1 modulo m when gcd(a, m) = 1, else with Uninvertible (2),
which includes a = 0 under every modulus (R194). -/
def Obligations.InvWritesInverseOrFails : Prop :=
  ∀ (s : State) (snap : Snap) (rd rs1 : Reg), s.completing snap → snap.configured →
    (Nat.gcd snap.a.toNat snap.m.toNat = 1 →
      ∃ y, y < snap.m.toNat ∧ snap.a.toNat * y % snap.m.toNat = 1 ∧ exec (.inv rd rs1) s = .next (s.succeeded rd y)) ∧
    (Nat.gcd snap.a.toNat snap.m.toNat ≠ 1 → exec (.inv rd rs1) s = .next (s.failed 2)) ∧
    (snap.a = 0 → exec (.inv rd rs1) s = .next (s.failed 2))

/-- R231, R232, R233: SQRT of n. The special cases first, then NotPrimeModulus (4), then NotQuadraticResidue (5) exactly
when n is no square modulo the odd prime m (R235), else the one root in [1, (m-1)/2]. -/
def Obligations.SqrtWritesSmallerRootOrFails : Prop :=
  ∀ (s : State) (snap : Snap) (rd rs1 : Reg), s.completing snap → snap.configured →
    (snap.a.toNat = 0 → exec (.sqrt rd rs1) s = .next (s.succeeded rd 0)) ∧
    (snap.a.toNat ≠ 0 → snap.m.toNat = 2 → exec (.sqrt rd rs1) s = .next (s.succeeded rd snap.a.toNat)) ∧
    (snap.a.toNat ≠ 0 → ¬ Nat.Prime snap.m.toNat → exec (.sqrt rd rs1) s = .next (s.failed 4)) ∧
    (snap.a.toNat ≠ 0 → snap.m.toNat ≠ 2 → Nat.Prime snap.m.toNat →
      (¬ ∃ r, r < snap.m.toNat ∧ r * r % snap.m.toNat = snap.a.toNat) → exec (.sqrt rd rs1) s = .next (s.failed 5)) ∧
    (snap.a.toNat ≠ 0 → snap.m.toNat ≠ 2 → Nat.Prime snap.m.toNat →
      (∃ r, r < snap.m.toNat ∧ r * r % snap.m.toNat = snap.a.toNat) →
      ∃ r, 1 ≤ r ∧ r ≤ (snap.m.toNat - 1) / 2 ∧ r * r % snap.m.toNat = snap.a.toNat ∧
        exec (.sqrt rd rs1) s = .next (s.succeeded rd r) ∧
        ∀ q, 1 ≤ q → q ≤ (snap.m.toNat - 1) / 2 → q * q % snap.m.toNat = snap.a.toNat → q = r)

/-! ### Configuration and reset (spec/41_configuration.md, spec/70_reset_and_hazards.md) -/

/-- R143, with R142's range and R144's exact primality: the completion step of a configuration. -/
def Obligations.ConfigCompletionSetsModulusOrFault : Prop :=
  ∀ (s : State) (w v : Word), s.env.turn = .engine → s.pending = some (.config w) →
    (2 ≤ w.toNat ∧ w.toNat ≤ 2 ^ 31 - 1 →
      ∃ p : Bool, (p = true ↔ Nat.Prime w.toNat) ∧
        exec (.config v) s = .next { s with
          modulus := w, cfgValid := true, modPrime := p, errcode := 0, busy := false, done := true, pending := none }) ∧
    (¬ (2 ≤ w.toNat ∧ w.toNat ≤ 2 ^ 31 - 1) →
      exec (.config v) s = .next { s with
        cfgFault := true, errcode := 1, busy := false, done := true, pending := none })

/-- R146: a CTRL write with bit 0 set resets the whole block in the same step, in every state; bits 31:1 are ignored; an
operation in flight is discarded. With bit 0 clear it does nothing. -/
def Obligations.SoftResetRestoresResetState : Prop :=
  ∀ (s : State) (v : Word),
    (v.getLsbD 0 = true →
      exec (.srst v) s = .next { State.reset with env := s.env } ∧ writeReg .ctrl v s = exec (.srst v) s) ∧
    (v.getLsbD 0 = false → writeReg .ctrl v s = .next s)

/-- R290: the hardware reset has the same effect as SRST, in one step, and a host access made while it is asserted is
refused. The reset input as events of the outside world, and that a poll and a conditional stop are accesses that are
refused by name, are the model's reading (assumption log 8). -/
def Obligations.HardwareResetIsSoftReset : Prop :=
  (∀ (s : State) (after : Env), s.about .assertReset after →
    ∃ t u, step s = .next t ∧ exec (.srst 1) s = .next u ∧ u.sameBlock t ∧ t.isReset = true ∧ t.env.resetLine = true ∧ t.pending = none) ∧
  (∀ (s : State) (e : Event) (after : Env), s.about e after → s.env.resetLine = true →
    (∃ a, e = .access a) ∨ e = .poll ∨ (∃ o k v, e = .stopIf o k v) →
      step s = .refused .accessDuringReset)

/-- R291: what the registers read right after reset, from any state. -/
def Obligations.RegistersReadResetValues : Prop :=
  ∀ s : State,
    s.blockReset.readReg .status = 0 ∧ s.blockReset.readReg .modulus = 0 ∧ s.blockReset.readReg .cmd = 0 ∧
    s.blockReset.readReg .argLo = 0 ∧ s.blockReset.readReg .argHi = 0 ∧ s.blockReset.readReg .id = 0x4D4F4431 ∧
    (∀ i : Reg, s.blockReset.readReg (.residue i) = 0) ∧ s.blockReset.quiescent = true ∧
    s.blockReset.cfgValid = false ∧ s.blockReset.cfgFault = false

/-! ### Errors and completion (spec/40_command_protocol.md, spec/60_exceptions.md) -/

/-- R125: a command accepted while the engine is unconfigured never succeeds: it completes with code 7 if its word is
illegal, else with 1 if CFG_FAULT was 1 at acceptance, else with 6. -/
def Obligations.UnconfiguredCommandFails : Prop :=
  ∀ (s : State) (snap : Snap), s.completing snap → snap.m = 0 →
    ((∃ why, decodeCmd snap.cmd = .illegal snap.cmd why) →
      completeOperation (.command snap) s = .next (s.failed 7)) ∧
    (∀ i, decodeCmd snap.cmd = .legal i →
      exec i s = .next (s.failed (if snap.F then 1 else 6)) ∧ completeOperation (.command snap) s = exec i s)

/-- R97, R265: an illegal word completes with IllegalCommand (7) before any other check, whatever the configuration. -/
def Obligations.IllegalWordCompletesWithCode7 : Prop :=
  ∀ (s : State) (snap : Snap), s.completing snap → (∀ i, decodeCmd snap.cmd ≠ .legal i) →
    step s = .next (s.failed 7).schedule

/-- R126 and R127: the completion step of a command either writes a value below the latched modulus into the register its
RD field names, with ERRCODE 0, or writes no residue register at all, with the code of an error; nothing else changes. -/
def Obligations.CommandCompletionWritesOneRegisterOrNone : Prop :=
  ∀ (s : State) (snap : Snap), s.completing snap → (snap.m ≠ 0 → snap.configured) →
    (∃ v, v < snap.m.toNat ∧ completeOperation (.command snap) s = .next (s.succeeded (rdField snap.cmd) v)) ∨
    (∃ e : ErrorCode, completeOperation (.command snap) s = .next (s.failed e.code) ∧ e.code ≠ 0)

/-- R128: the outcome of a command is a function of the snapshot alone: two states that agree on nothing but the snapshot
complete alike. -/
def Obligations.OutcomeDependsOnSnapshotOnly : Prop :=
  ∀ (s s' : State) (snap : Snap), s.completing snap → s'.completing snap →
    (∃ v, completeOperation (.command snap) s = .next (s.succeeded (rdField snap.cmd) v) ∧
      completeOperation (.command snap) s' = .next (s'.succeeded (rdField snap.cmd) v)) ∨
    (∃ code, code ≠ 0 ∧ completeOperation (.command snap) s = .next (s.failed code) ∧
      completeOperation (.command snap) s' = .next (s'.failed code))

/-- R129: an operation in flight stays in flight, the same, until its completion step or a reset: nothing else ends it. -/
def Obligations.OperationEndsByCompletionOrReset : Prop :=
  ∀ (s t : State) (op : Operation), s.Inv → s.pending = some op → step s = .next t →
    t.pending = some op ∨
    (s.env.turn = .engine ∧ t.pending = none ∧ t.busy = false ∧ t.done = true) ∨
    (s.env.turn = .host ∧ t.isReset = true)

/-- R300, R302 with R73's fairness: an operation in flight completes (or is reset away) after at most `delay + 2` steps,
unless an access comes that the block does not define. The number of steps is the model's own measure of LATENCY
(assumption log 2). -/
def Obligations.OperationInFlightCompletes : Prop :=
  ∀ s : State, s.Inv → s.pending ≠ none →
    ∃ n, n ≤ s.env.delay + 2 ∧
      ((∃ t, runSteps n s = .next t ∧ t.pending = none) ∨ (∃ r, runSteps n s = .refused r))

/-- R123, R93: a command reads its sources at acceptance and writes its destination at completion, also where they are
one register: MUL from issue to result, through any ARG write in between. -/
def Obligations.MulReadsSourcesBeforeItWrites : Prop :=
  ∀ (s : State) (rd rs1 rs2 : Reg) (arg : DWord), s.Inv → s.cfgValid = true → s.busy = false → s.env.turn = .host →
    ∃ u t, exec (.mul rd rs1 rs2) s = .next u ∧ u.x = s.x ∧
      exec (.mul rd rs1 rs2) { u with arg := arg, env := { u.env with turn := .engine } } = .next t ∧
      (t.reg rd).toNat = (s.reg rs1).toNat * (s.reg rs2).toNat % s.modulus.toNat ∧
      (∀ j, j ≠ rd → t.reg j = s.reg j)

/-! ### The step (spec/40_command_protocol.md R132, R133) -/

/-- A step runs the decoded operation: the register write the host is about to make, the command in flight, the
configuration in flight; and the table word `withFetchWord` places. -/
def Obligations.StepRunsDecodedOperation : Prop :=
  (∀ (s : State) (off : Nat) (v : Word) (after : Env) (i : Instr), s.about (Event.W off v) after →
    s.env.resetLine = false → decodeWrite ⟨off, v⟩ = .operation i →
      step s = mapNext State.schedule (exec i (s.withEnv after))) ∧
  (∀ (s : State) (snap : Snap) (i : Instr), s.completing snap → decodeCmd snap.cmd = .legal i →
    step s = mapNext State.schedule (exec i s)) ∧
  (∀ (s : State) (w : Word), s.env.turn = .engine → s.pending = some (.config w) →
    step s = mapNext State.schedule (exec (.config w) s)) ∧
  (∀ (s : State) (nbits w : Nat) (i : Instr), decodeTableWord nbits w = some i →
    step (s.withFetchWord nbits w) =
      mapNext State.schedule (exec i { s with env := { s.env with turn := .host, resetLine := false } }))

/-- R63, R133: an access that is not a 32-bit access at a multiple of 4 inside the window is refused, each by its own
name, and every other access is served. Which name an access with several defects gets is the model's choice (assumption
log 10). -/
def Obligations.OnlyUndefinedAccessesAreRefused : Prop :=
  ∀ (s : State) (a : Access) (after : Env), s.about (.access a) after → s.env.resetLine = false →
    (a.bytes ≠ 4 → step s = .refused .undefinedWidth) ∧
    (a.bytes = 4 → a.offset % 4 ≠ 0 → step s = .refused .misaligned) ∧
    (a.bytes = 4 → a.offset % 4 = 0 → (a.offset < 0 ∨ 0x7C < a.offset) → step s = .refused .outsideWindow) ∧
    (a.bytes = 4 → a.offset % 4 = 0 → 0 ≤ a.offset → a.offset ≤ 0x7C → ∃ t, step s = .next t)

/-- No operation is ever refused and none stops the machine: in every state each answers a next state (R268, R129). -/
def Obligations.EveryOperationAnswersNextState : Prop :=
  ∀ (i : Instr) (s : State), ∃ t, exec i s = .next t

/-- R101, R302: `POLL` reads STATUS once a step, and goes on exactly while bit 0 (BUSY) of what it read is 1. -/
def Obligations.PollWaitsForBusyClear : Prop :=
  ∀ (s : State) (after : Env), s.about .poll after → s.env.resetLine = false →
    ∃ t, step s = .next t ∧ s.sameBlock t ∧ t.env.reads = s.status :: s.env.reads ∧
      (s.status.getLsbD 0 = true → t.env.events = .poll :: after.events) ∧
      (s.status.getLsbD 0 = false → t.env.events = after.events)

/-- R102, `LI rd, k`: from a configured, quiescent block to which nothing else comes, the expansion runs to its end, puts
mod(k, m) into x[rd], leaves the other registers alone and reports no error. That it ends rests on assumption log 2. (A
reset or another master's access in the middle of it is `PollEndsByReset`'s matter.) -/
def Obligations.LoadImmediateExpansionLoadsResidue : Prop :=
  ∀ (s : State) (rd : Reg) (k : Int), s.Inv → s.cfgValid = true → s.pending = none → s.env.turn = .host →
    s.env.resetLine = false → s.env.events = expand (.li rd k) → s.env.arrivals = [] → (Pseudo.li rd k).wellFormed = true →
      ∃ n t, runSteps n s = .next t ∧ t.runEnded = true ∧ t.errcode = 0 ∧ t.done = true ∧
        ((t.reg rd).toNat : Int) = k % s.modulus.toNat ∧ (∀ j, j ≠ rd → t.reg j = s.reg j)

/-! ### Invariants and rules about every step (spec/10_state.md) -/

/-- The invariant holds right after reset, whatever the outside world is about to do (R45). -/
def Obligations.InvariantHoldsAfterReset : Prop :=
  State.reset.Inv ∧ ∀ (events : List Event) (arrivals : List (Nat × Event)) (latencies : List Nat),
    (State.start events arrivals latencies).Inv

/-- Every step keeps the invariant: R23, R25, R31 to R34, R36, R144, R261 and the agreement of the operation in flight
with the registers. -/
def Obligations.EveryStepKeepsInvariant : Prop :=
  ∀ s t : State, s.Inv → step s = .next t → t.Inv

/-- R23, R25 of every state a run from reset reaches, whatever the host does and however long operations take: a
configured residue is below the modulus, an unconfigured one is 0. -/
def Obligations.ReachableResiduesAreReduced : Prop :=
  ∀ (events : List Event) (arrivals : List (Nat × Event)) (latencies : List Nat) (t : State),
    Reaches (State.start events arrivals latencies) t →
    (t.cfgValid = true → 2 ≤ t.modulus.toNat ∧ t.modulus.toNat < 2 ^ 31 ∧ ∀ i, (t.reg i).toNat < t.modulus.toNat) ∧
    (t.cfgValid = false → ∀ i, t.reg i = 0)

/-- R34: CFG_VALID, MOD_PRIME and CFG_FAULT change only where a configuration completes or by reset; at most one of
CFG_VALID and CFG_FAULT is 1; MOD_PRIME implies CFG_VALID. -/
def Obligations.ConfigFlagsChangeOnlyByConfigOrReset : Prop :=
  ∀ s t : State, s.Inv → step s = .next t →
    ((t.cfgValid = s.cfgValid ∧ t.modPrime = s.modPrime ∧ t.cfgFault = s.cfgFault) ∨
      (s.env.turn = .engine ∧ ∃ w, s.pending = some (.config w)) ∨ t.isReset = true) ∧
    ¬ (t.cfgValid = true ∧ t.cfgFault = true) ∧ (t.modPrime = true → t.cfgValid = true)

/-- R24: a residue register changes only where a command with that RD field completes with success, or by reset; the host
reads it at its offset, and a host write there is ignored. -/
def Obligations.ResidueWrittenOnlyByItsCommandOrReset : Prop :=
  (∀ (s t : State) (i : Reg), step s = .next t → t.reg i ≠ s.reg i →
    (∃ snap, s.completing snap ∧ rdField snap.cmd = i ∧ t.done = true ∧ t.errcode = 0) ∨ t.isReset = true) ∧
  (∀ (s : State) (i : Reg), (RegName.ofOffset (0x20 + 4 * i.val)).map s.readReg = some (s.reg i)) ∧
  (∀ (s : State) (i : Reg) (v : Word), writeReg (.residue i) v s = .next s)

/-- R35: DROPPED, once set, stays 1 until reset, and it is set only where a CMD or MODULUS write cannot be accepted. -/
def Obligations.DroppedIsSticky : Prop :=
  ∀ s t : State, step s = .next t →
    (s.dropped = true → t.dropped = true ∨ t.isReset = true) ∧
    (s.dropped = false → t.dropped = true → s.busy = true ∨ s.cfgValid = true ∨ s.cfgFault = true)

/-- R36: MODULUS is write-once: once configured or faulted it changes only by reset. -/
def Obligations.ModulusIsWriteOnce : Prop :=
  ∀ s t : State, s.Inv → step s = .next t → s.cfgValid = true ∨ s.cfgFault = true →
    t.modulus = s.modulus ∨ t.isReset = true

/-- R145: with CFG_FAULT = 1 nothing but a reset clears it, MODULUS stays 0, no residue register changes, and a command
that completes reports code 1, or 7 for an illegal word. -/
def Obligations.ConfigFaultIsFatalUntilReset : Prop :=
  ∀ s t : State, s.Inv → s.cfgFault = true → step s = .next t → t.isReset = false →
    t.cfgFault = true ∧ t.modulus = 0 ∧ t.cfgValid = false ∧ t.x = s.x ∧
    (∀ snap, s.completing snap → t.done = true ∧
      t.errcode = (match decodeCmd snap.cmd with | .legal _ => 1 | .illegal _ _ => 7))

/-! ### Laws of the results -/

/-- R163: normalisation is idempotent: LOADS of a value already in [0, m) gives it unchanged. -/
def Obligations.LoadingAResidueIsIdentity : Prop :=
  ∀ (s : State) (snap : Snap) (rd : Reg), s.completing snap → snap.configured →
    snap.arg.toNat < snap.m.toNat → exec (.loads rd) s = .next (s.succeeded rd snap.arg.toNat)

/-- R182: products are commutative, associative, have 1 and 0 as the ring has them, and stay in [0, m). -/
def Obligations.MultiplicationLawsHold : Prop :=
  ∀ m a b c : Nat, 2 ≤ m → m < 2 ^ 31 → a < m → b < m → c < m →
    mulOf a b m = mulOf b a m ∧
    (∃ p q r, p < m ∧ q < m ∧ r < m ∧ mulOf a b m = .finish p ∧ mulOf b c m = .finish q ∧
      mulOf p c m = .finish r ∧ mulOf a q m = .finish r) ∧
    mulOf a 1 m = .finish a ∧ mulOf a 0 m = .finish 0

/-- R195: `a * INV(a)` is 1, INV undoes itself, and division undoes multiplication. -/
def Obligations.InverseLawsHold : Prop :=
  ∀ m : Nat, 2 ≤ m → m < 2 ^ 31 →
    (∀ a, a < m → Nat.gcd a m = 1 →
      ∃ y, y < m ∧ invOf a m = .finish y ∧ mulOf a y m = .finish 1 ∧ invOf y m = .finish a) ∧
    (∀ a b, a < m → b < m → Nat.gcd b m = 1 →
      ∃ y p, y < m ∧ p < m ∧ invOf b m = .finish y ∧ mulOf a y m = .finish p ∧ mulOf p b m = .finish a)

/-- R216: the three laws of powers, for every modulus, every residue and all exponents in the 64-bit range. -/
def Obligations.PowerLawsHold : Prop :=
  ∀ m a : Nat, 2 ≤ m → m < 2 ^ 31 → a < m →
    powOf a m 0 = .finish 1 ∧
    (∀ j k : Int, inSigned64 j = true → inSigned64 k = true → inSigned64 (j + k) = true →
      ∀ u v w : Nat, powOf a m j = .finish u → powOf a m k = .finish v → powOf a m (j + k) = .finish w →
        mulOf u v m = .finish w) ∧
    (∀ k : Int, 0 ≤ k → k < 2 ^ 63 →
      ∃ v, powOf a m k = .finish v ∧ v < m ∧ powOf a m (-k) = invOf v m ∧
        (1 ≤ k → (powOf a m (-k) = .raise .uninvertible ↔ Nat.gcd a m ≠ 1)))

/-- R217: under a prime m and for a ≠ 0, POW(a, m-1) is 1 and POW(a, m-2) is INV(a). -/
def Obligations.FermatPowersHold : Prop :=
  ∀ m a : Nat, Nat.Prime m → m < 2 ^ 31 → 0 < a → a < m →
    powOf a m (m - 1 : Nat) = .finish 1 ∧ powOf a m (m - 2 : Nat) = invOf a m ∧ ∃ y, invOf a m = .finish y

/-- R239: a SQRT that succeeds gives r with r*r = n and r ≤ m - r, and for an odd prime m SQRT(MUL(a, a)) is
min(a, m - a). -/
def Obligations.SqrtLawsHold : Prop :=
  (∀ snap r, snap.configured → sqrtResult snap = .finish r →
    r * r % snap.m.toNat = snap.a.toNat ∧ r ≤ snap.m.toNat - r) ∧
  (∀ m a : Nat, Nat.Prime m → m ≠ 2 → m < 2 ^ 31 → a < m →
    ∃ q, mulOf a a m = .finish q ∧ sqrtOf q m = .finish (min a (m - a)))

/-- R215: POW with a negative exponent fails exactly when INV of the base fails, and with a non-negative one never;
POW(0, -1) is Uninvertible, and POW(0, m - 2) is 0 for m >= 3. -/
def Obligations.NegativePowerFailsAsInverseDoes : Prop :=
  ∀ m a : Nat, 2 ≤ m → m < 2 ^ 31 → a < m → ∀ k : Int, inSigned64 k = true →
    (k < 0 → ((∃ e, powOf a m k = .raise e) ↔ ∃ e, invOf a m = .raise e)) ∧
    (0 ≤ k → ∃ v, v < m ∧ powOf a m k = .finish v) ∧
    powOf 0 m (-1) = .raise .uninvertible ∧ (3 ≤ m → powOf 0 m (m - 2 : Nat) = .finish 0)

/-! ### A reset during the wait loop (spec/70_reset_and_hazards.md R302) -/

/-- R302: "A reset during the poll also ends it, with STATUS = 0 and the operation lost": in the middle of the wait loop,
whatever has been polled before, a soft reset by another master's CTRL write, or the reset input asserted and released,
discards the operation in flight; the loop's next read is STATUS = 0 and ends it. That such an event is an arrival beside
the host's list is the model's choice (assumption log 14). -/
def Obligations.PollEndsByReset : Prop :=
  ∀ (s : State) (op : Operation) (rest : List Event) (more : List (Nat × Event)),
    s.env.turn = .host → s.env.resetLine = false → s.pending = some op → s.env.events = .poll :: rest →
    (∀ e later, more ≠ (0, e) :: later) →
    (∀ v : Word, v.getLsbD 0 = true → s.env.arrivals = (0, Event.W 0x04 v) :: more →
      ∃ t, runSteps 2 s = .next t ∧ t.isReset = true ∧ t.env.reads = 0 :: s.env.reads ∧ t.env.events = rest) ∧
    (s.env.arrivals = (0, .assertReset) :: (0, .releaseReset) :: more →
      ∃ t, runSteps 3 s = .next t ∧ t.isReset = true ∧ t.env.reads = 0 :: s.env.reads ∧ t.env.events = rest)
end

