-- ==== Sys2Proof/Laws/Arith.lean ====
section
/-! SUPPORT. Each arithmetic function of Machine/Arith.lean has exactly the value spec/00_scope.md R9 and R10 give it. -/

namespace Sys2Proof.Machine

/-! ### mod (R9) -/

theorem modInt_cast (a : Int) {m : Nat} (hm : 0 < m) : (modInt a m : Int) = a % m :=
  Int.toNat_of_nonneg (Int.emod_nonneg a (by omega))

theorem modInt_lt (a : Int) {m : Nat} (hm : 0 < m) : modInt a m < m := by
  have := Int.emod_lt_of_pos a (show (0 : Int) < m by omega)
  have := modInt_cast a hm
  omega

/-- `a - mod(a, m)` is divisible by m. -/
theorem modInt_dvd (a : Int) {m : Nat} (hm : 0 < m) : (m : Int) ∣ a - modInt a m := by
  rw [modInt_cast a hm]
  exact Int.dvd_self_sub_emod

/-- `mod(a, m)` is the only such number (R9: "the unique r"). -/
theorem modInt_unique {a : Int} {m r : Nat} (hr : r < m) (h : (m : Int) ∣ a - r) : r = modInt a m := by
  have hm : 0 < m := by omega
  have h1 : (r : Int) % m = a % m := Int.modEq_iff_dvd.mpr h
  rw [Int.emod_eq_of_lt (by omega) (by omega)] at h1
  have := modInt_cast a hm
  omega

/-- Normalising a natural number is its remainder. -/
theorem modInt_natCast (a m : Nat) : modInt (a : Int) m = a % m := by
  unfold modInt
  omega

/-! ### isPrime (R10, R144) -/

/-- What the divisor search of `2^k` candidates decides. -/
theorem noDivisor_iff (k lo n : Nat) :
    noDivisor k lo n = true ↔ ∀ j < 2 ^ k, (lo + 2 * j) * (lo + 2 * j) ≤ n → ¬ (lo + 2 * j) ∣ n := by
  induction k generalizing lo with
  | zero =>
    simp only [noDivisor, Bool.or_eq_true, Bool.not_eq_true', Nat.blt_eq, pow_zero, Nat.lt_one_iff, forall_eq, mul_zero,
      add_zero, Nat.dvd_iff_mod_eq_zero]
    rw [show Nat.beq (n % lo) 0 = false ↔ n % lo ≠ 0 by rw [← Bool.not_eq_true, Nat.beq_eq]]
    constructor
    · rintro (h | h) hle
      · omega
      · exact h
    · intro h
      by_cases hlt : n < lo * lo
      · exact .inl hlt
      · exact .inr (h (by omega))
  | succ k ih =>
    simp only [noDivisor, Bool.or_eq_true, Bool.and_eq_true, Nat.blt_eq, ih]
    constructor
    · rintro (h | ⟨h1, h2⟩) j hj hle
      · have : lo * lo ≤ (lo + 2 * j) * (lo + 2 * j) := Nat.mul_le_mul (by omega) (by omega)
        omega
      · by_cases hjk : j < 2 ^ k
        · exact h1 j hjk hle
        · have e : lo + 2 ^ (k + 1) + 2 * (j - 2 ^ k) = lo + 2 * j := by rw [pow_succ]; omega
          have := h2 (j - 2 ^ k) (by rw [pow_succ] at hj; omega)
          rw [e] at this
          exact this hle
    · intro h
      refine .inr ⟨fun j hj => h j (by rw [pow_succ]; omega), fun j hj => ?_⟩
      have e : lo + 2 ^ (k + 1) + 2 * j = lo + 2 * (2 ^ k + j) := by rw [pow_succ]; omega
      rw [e]
      exact h (2 ^ k + j) (by rw [pow_succ]; omega)

/-- `isPrime` is the exact predicate on every 32-bit number. -/
theorem isPrime_iff {n : Nat} (hn : n < 2 ^ 32) : isPrime n = true ↔ Nat.Prime n := by
  simp only [isPrime, Bool.or_eq_true, Bool.and_eq_true, Nat.beq_eq, Nat.ble_eq, noDivisor_iff]
  constructor
  · rintro (rfl | ⟨⟨h3, hodd⟩, hnd⟩)
    · exact Nat.prime_two
    · by_contra hp
      have hmp := Nat.minFac_prime (show n ≠ 1 by omega)
      have hsq : n.minFac ^ 2 ≤ n := Nat.minFac_sq_le_self (by omega) hp
      have hdvd := Nat.minFac_dvd n
      have hpo : n.minFac % 2 = 1 := by
        rcases hmp.eq_two_or_odd with h2 | h2
        · rw [h2] at hdvd; omega
        · exact h2
      have h3' : 3 ≤ n.minFac := by have := hmp.two_le; omega
      have hlt : n.minFac < 2 ^ 16 := by
        by_contra hge
        have : 2 ^ 16 * 2 ^ 16 ≤ n.minFac * n.minFac := Nat.mul_le_mul (by omega) (by omega)
        rw [pow_two] at hsq
        omega
      have e : 3 + 2 * ((n.minFac - 3) / 2) = n.minFac := by omega
      have := hnd ((n.minFac - 3) / 2) (by omega)
      rw [e] at this
      exact this (by rw [pow_two] at hsq; exact hsq) hdvd
  · intro hp
    rcases hp.eq_two_or_odd with h2 | hodd
    · exact .inl h2
    · refine .inr ⟨⟨by have := hp.two_le; omega, hodd⟩, fun j _ hle hd => ?_⟩
      rcases (Nat.dvd_prime hp).mp hd with h | h
      · omega
      · rw [h] at hle
        have := hp.two_le
        nlinarith

/-! ### powmod (R10, R214) -/

theorem powLoop_eq (m fuel acc sq n : Nat) (hn : n < 2 ^ fuel) (hacc : acc % m = acc) :
    powLoop m fuel acc sq n = acc * sq ^ n % m := by
  induction fuel generalizing acc sq n with
  | zero =>
    have : n = 0 := by simpa using hn
    subst this
    simp [powLoop, hacc]
  | succ f ih =>
    rw [powLoop]
    split
    · subst n; simp [hacc]
    · have hn2 : n / 2 < 2 ^ f := by rw [pow_succ] at hn; omega
      have key : ∀ acc', (acc' % m = acc') →
          powLoop m f acc' (sq * sq % m) (n / 2) = acc' * (sq * sq) ^ (n / 2) % m := by
        intro acc' h
        rw [ih acc' _ _ hn2 h, Nat.mul_mod, Nat.pow_mod, Nat.mod_mod, ← Nat.pow_mod, ← Nat.mul_mod]
      split
      · rw [key _ (Nat.mod_mod _ _), Nat.mul_mod, Nat.mod_mod, ← Nat.mul_mod, ← pow_two, ← pow_mul, mul_assoc, ← pow_succ']
        congr 3
        omega
      · rw [key _ hacc, ← pow_two, ← pow_mul]
        congr 3
        omega

/-- `powmod(b, e, m) = mod(b^e, m)` for every exponent of at most 64 bits (R10, R214). -/
theorem powmod_eq (b : Nat) {e : Nat} (m : Nat) (he : e < 2 ^ 64) : powmod b e m = b ^ e % m := by
  rw [powmod, powLoop_eq _ _ _ _ _ he (Nat.mod_mod _ _), Nat.mul_mod, Nat.mod_mod, ← Nat.pow_mod, ← Nat.mul_mod,
    one_mul]

theorem powmod_lt (b : Nat) {e m : Nat} (hm : 0 < m) (he : e < 2 ^ 64) : powmod b e m < m := by
  rw [powmod_eq b m he]
  exact Nat.mod_lt _ hm

/-! ### invmod (R10, R193) -/

/-- The Euclid loop ends in the gcd, with a Bézout coefficient modulo m. -/
theorem bezout_spec (m : Nat) (a : Int) (fuel r0 r1 : Nat) (t0 t1 : Int) (hf : r1 < fuel)
    (h0 : (m : Int) ∣ a * t0 - r0) (h1 : (m : Int) ∣ a * t1 - r1) :
    (bezout fuel r0 r1 t0 t1).1 = Nat.gcd r0 r1 ∧
      (m : Int) ∣ a * (bezout fuel r0 r1 t0 t1).2 - (bezout fuel r0 r1 t0 t1).1 := by
  induction fuel generalizing r0 r1 t0 t1 with
  | zero => omega
  | succ f ih =>
    rw [bezout]
    split
    · subst r1; exact ⟨by simp, h0⟩
    · have hlt : r0 % r1 < r1 := Nat.mod_lt _ (by omega)
      have hdiv : ((r0 % r1 : Nat) : Int) = r0 - (r0 / r1 : Nat) * r1 := by
        have := Nat.div_add_mod r0 r1
        have h2 : ((r1 * (r0 / r1) + r0 % r1 : Nat) : Int) = r0 := by exact_mod_cast this
        push_cast at h2 ⊢
        linarith [mul_comm (r1 : Int) ((r0 : Int) / (r1 : Int))]
      have hnew : (m : Int) ∣ a * (t0 - (r0 / r1 : Nat) * t1) - (r0 % r1 : Nat) := by
        have e : a * (t0 - (r0 / r1 : Nat) * t1) - (r0 % r1 : Nat) = (a * t0 - r0) - (r0 / r1 : Nat) * (a * t1 - r1) := by
          rw [hdiv]; ring
        rw [e]
        exact dvd_sub h0 (Dvd.dvd.mul_left h1 _)
      obtain ⟨hg, hd⟩ := ih r1 (r0 % r1) t1 _ (by omega) h1 hnew
      exact ⟨by rw [hg, Nat.gcd_comm, ← Nat.gcd_rec, Nat.gcd_comm], hd⟩

theorem invmod_lt (a : Nat) {m : Nat} (hm : 0 < m) : invmod a m < m := modInt_lt _ hm

/-- `mod(a * invmod(a, m), m) = 1` when gcd(a, m) = 1 (R10, R190). -/
theorem invmod_spec {a m : Nat} (hm : 2 ≤ m) (hg : Nat.gcd a m = 1) : a * invmod a m % m = 1 := by
  obtain ⟨h1, h2⟩ := bezout_spec m a (a + 1) m a 0 1 (by omega) (by simp) (by simp)
  rw [h1, Nat.gcd_comm, hg] at h2
  have h3 := modInt_dvd (bezout (a + 1) m a 0 1).2 (show 0 < m by omega)
  have h4 : (m : Int) ∣ (1 : Nat) - ((a * invmod a m : Nat) : Int) := by
    have e : ((1 : Nat) : Int) - ((a * invmod a m : Nat) : Int) =
        a * ((bezout (a + 1) m a 0 1).2 - invmod a m) - (a * (bezout (a + 1) m a 0 1).2 - (1 : Nat)) := by
      push_cast; ring
    rw [e]
    exact dvd_sub (Dvd.dvd.mul_left h3 _) h2
  have h5 := (Nat.modEq_iff_dvd.mpr h4)
  rw [Nat.ModEq, Nat.mod_eq_of_lt (show 1 < m by omega)] at h5
  exact h5

/-- The inverse is unique in [0, m) (R190). -/
theorem inverse_unique {a m x y : Nat} (hx : x < m) (hy : y < m) (hax : a * x % m = 1) (hay : a * y % m = 1) : x = y := by
  have h : x * (a * y) ≡ y * (a * x) [MOD m] := by
    have e : x * (a * y) = y * (a * x) := by ring
    rw [e]
  have h1 : x * (a * y) % m = x := by
    rw [Nat.mul_mod, hay, mul_one, Nat.mod_mod, Nat.mod_eq_of_lt hx]
  have h2 : y * (a * x) % m = y := by
    rw [Nat.mul_mod, hax, mul_one, Nat.mod_mod, Nat.mod_eq_of_lt hy]
  rw [Nat.ModEq, h1, h2] at h
  exact h

/-- An inverse exists only when gcd(a, m) = 1 (R190). -/
theorem gcd_eq_one_of_inverse {a m x : Nat} (h : a * x % m = 1) : Nat.gcd a m = 1 := by
  have hd1 : Nat.gcd a m ∣ a * x := Dvd.dvd.mul_right (Nat.gcd_dvd_left a m) x
  have hd2 : Nat.gcd a m ∣ a * x % m := (Nat.dvd_mod_iff (Nat.gcd_dvd_right a m)).mpr hd1
  rw [h] at hd2
  exact Nat.dvd_one.mp hd2

end Sys2Proof.Machine
end

