-- ==== Sys2Proof/Laws/Decode.lean ====
section
/-! SUPPORT. What the decoder can answer, and the register map read both ways. -/

namespace Sys2Proof

/-- A command is one of the six of R95, with the word's own register fields. -/
theorem decodeCmd_cases {w : Word} {i : Instr} (h : decodeCmd w = .legal i) :
    i = .loads (rdField w) ∨ i = .loadu (rdField w) ∨ i = .mul (rdField w) (rs1Field w) (rs2Field w) ∨
      i = .pow (rdField w) (rs1Field w) ∨ i = .inv (rdField w) (rs1Field w) ∨ i = .sqrt (rdField w) (rs1Field w) := by
  unfold decodeCmd at h
  split at h
  · rename_i r _
    injection h with h
    subst h
    cases r.op <;> simp [Op.toInstr]
  · cases h

/-- An illegal word is kept whole (R97). -/
theorem decodeCmd_illegal {w v : Word} {why : IllegalCause} (h : decodeCmd w = .illegal v why) : v = w := by
  unfold decodeCmd at h
  split at h
  · cases h
  · injection h with h; exact h.symm

/-- No two rows of the opcode table match one word (R95). -/
theorem opTable_disjoint : opTable.Pairwise (fun r q => opcField r.pattern ≠ opcField q.pattern) := by decide

/-- Every register is at its offset (R27). -/
theorem ofOffset_offset (r : RegName) : RegName.ofOffset r.offset = some r := by
  cases r with
  | residue i => revert i; decide
  | _ => rfl

/-- Every aligned offset of the window is some register's (R60). -/
theorem ofOffset_isSome (off : Nat) : (RegName.ofOffset off).isSome = true ↔ off % 4 = 0 ∧ off < 0x80 := by
  unfold RegName.ofOffset
  repeat' split
  all_goals simp
  all_goals omega

/-- A write to a named register is decoded by that register. -/
theorem decodeWrite_offset (r : RegName) (v : Word) : decodeWrite ⟨r.offset, v⟩ = decodeRegWrite r v := by
  simp [decodeWrite, ofOffset_offset]

/-- A bus word is the word its lanes carry (R65). -/
theorem wordOfLanes_byteLane (w : Word) :
    wordOfLanes (byteLane 0 w) (byteLane 1 w) (byteLane 2 w) (byteLane 3 w) = w := by
  apply BitVec.eq_of_getLsbD_eq
  intro k hk
  simp only [wordOfLanes, byteLane, BitVec.getLsbD_append, BitVec.getLsbD_extractLsb']
  interval_cases k <;> simp

/-! ### The fields of an assembled word (R99) -/

/-- A register index put back where it was read is the field itself. -/
theorem regField_shift (w : Word) (lo : Nat) :
    BitVec.ofNat 32 (regField lo w).val <<< lo = w &&& ((7 : Word) <<< lo) := by
  apply BitVec.eq_of_getLsbD_eq
  intro k hk
  have h7 : ∀ j, (7 : Word).getLsbD j = decide (j < 3) := by
    intro j
    by_cases hj : j < 32
    · have : ∀ i : Fin 32, (7 : Word).getLsbD i = decide (i.val < 3) := by decide
      exact this ⟨j, hj⟩
    · rw [BitVec.getLsbD_of_ge _ _ (by omega)]
      simp; omega
  simp only [regField, BitVec.getLsbD_shiftLeft, BitVec.getLsbD_and, h7, BitVec.getLsbD_ofNat, BitVec.testBit_toNat,
    BitVec.getLsbD_extractLsb']
  by_cases h1 : k < lo
  · simp [h1]
  · rw [show lo + (k - lo) = k by omega]
    by_cases h2 : k - lo < 3
    · have h3 : k - lo < 32 := by omega
      simp [h1, h2, h3, hk]
    · simp [h1, h2]

/-- Encoding a decoded command gives its word back: a legal word has one meaning and no bit is dropped. -/
theorem encodeWord_of_decode {w : Word} {i : Instr} (h : decodeCmd w = .legal i) : encodeWord i = w := by
  have h8 := regField_shift w 8
  have h12 := regField_shift w 12
  have h16 := regField_shift w 16
  unfold decodeCmd at h
  split at h
  · rename_i r hr
    injection h with h
    subst h
    have hm := List.find?_some hr
    have hmem := List.mem_of_find?_eq_some hr
    simp only [OpRow.matchesWord, beq_iff_eq] at hm
    simp only [opTable, List.mem_cons, List.not_mem_nil, or_false] at hmem
    obtain rfl | rfl | rfl | rfl | rfl | rfl := hmem <;>
      simp only [Op.toInstr, encodeWord, commandWord, rdField, rs1Field, rs2Field, h8, h12, h16, Format.mask,
        Fin.val_zero] at hm ⊢ <;>
      simp only [← hm, BitVec.ofNat_eq_ofNat, BitVec.zero_shiftLeft, BitVec.or_zero, ← BitVec.and_or_distrib_left] <;>
      exact BitVec.and_allOnes
  · cases h

/-- The register fields of an assembled word are the registers put in (R99). -/
theorem fields_commandWord {opc : Word} (h : opc ∈ [0x01, 0x02, 0x10, 0x20, 0x30, 0x40]) (rd rs1 rs2 : Reg) :
    rdField (commandWord opc rd rs1 rs2) = rd ∧ rs1Field (commandWord opc rd rs1 rs2) = rs1 ∧
      rs2Field (commandWord opc rd rs1 rs2) = rs2 := by
  simp only [List.mem_cons, List.not_mem_nil, or_false] at h
  obtain rfl | rfl | rfl | rfl | rfl | rfl := h <;> (revert rd rs1 rs2; decide +kernel)

end Sys2Proof
end

