-- ==== Sys2Proof/Laws/Sqrt.lean ====
section
/-! SUPPORT. The Tonelli–Shanks engine is correct: for an odd prime m and n in [1, m-1] that passes Euler's criterion,
`sqrtmod n m` is the one root of n in [1, (m-1)/2] (spec/46_sqrt.md R231, R233, R234, R237, R238). -/

namespace Sys2Proof.Machine

/-! ### Naturals below m as elements of Z/mZ -/

theorem cast_powmod (b : Nat) {e : Nat} (m : Nat) (he : e < 2 ^ 64) :
    ((powmod b e m : Nat) : ZMod m) = (b : ZMod m) ^ e := by
  rw [powmod_eq b m he, ZMod.natCast_mod, Nat.cast_pow]

theorem cast_inj_of_lt {a b m : Nat} (ha : a < m) (hb : b < m) (h : (a : ZMod m) = b) : a = b := by
  have := (ZMod.natCast_eq_natCast_iff a b m).mp h
  rwa [Nat.ModEq, Nat.mod_eq_of_lt ha, Nat.mod_eq_of_lt hb] at this

theorem cast_pred (m : Nat) (hm : 0 < m) : ((m - 1 : Nat) : ZMod m) = -1 := by
  rw [Nat.cast_sub (by omega)]; simp

/-- Euler's test on naturals is the test in Z/mZ. -/
theorem powmod_eq_one_iff (n : Nat) {e m : Nat} (hm : 1 < m) (he : e < 2 ^ 64) :
    powmod n e m = 1 ↔ (n : ZMod m) ^ e = 1 := by
  rw [← cast_powmod n m he]
  constructor
  · intro h; rw [h]; simp
  · intro h
    exact cast_inj_of_lt (powmod_lt n (by omega) he) hm (by rw [h]; simp)

theorem powmod_eq_pred_iff (n : Nat) {e m : Nat} (hm : 1 < m) (he : e < 2 ^ 64) :
    powmod n e m = m - 1 ↔ (n : ZMod m) ^ e = -1 := by
  rw [← cast_powmod n m he]
  constructor
  · intro h; rw [h, cast_pred m (by omega)]
  · intro h
    exact cast_inj_of_lt (powmod_lt n (by omega) he) (by omega) (by rw [h, cast_pred m (by omega)])

/-! ### The parts of the algorithm -/

/-- `splitTwo` keeps `q * 2^s` and ends with q odd. -/
theorem splitTwo_spec (fuel q s : Nat) (hq : 0 < q) (hlt : q < 2 ^ fuel) :
    (splitTwo fuel q s).1 * 2 ^ (splitTwo fuel q s).2 = q * 2 ^ s ∧ (splitTwo fuel q s).1 % 2 = 1 := by
  induction fuel generalizing q s with
  | zero => simp at hlt; omega
  | succ f ih =>
    rw [splitTwo]
    split
    · have h2 : q / 2 < 2 ^ f := by rw [pow_succ] at hlt; omega
      obtain ⟨h, ho⟩ := ih (q / 2) (s + 1) (by omega) h2
      refine ⟨?_, ho⟩
      rw [h, pow_succ]
      have : q / 2 * 2 = q := by omega
      calc q / 2 * (2 ^ s * 2) = q / 2 * 2 * 2 ^ s := by ring
        _ = q * 2 ^ s := by rw [this]
    · exact ⟨rfl, by simp; omega⟩

/-- The linear search finds a non-residue where there is one in its range (R238). -/
theorem nonResidue_spec (m fuel z : Nat) (h : ∃ y, z ≤ y ∧ y < z + fuel ∧ powmod y ((m - 1) / 2) m = m - 1) :
    powmod (nonResidue m fuel z) ((m - 1) / 2) m = m - 1 := by
  induction fuel generalizing z with
  | zero => obtain ⟨y, h1, h2, _⟩ := h; omega
  | succ f ih =>
    rw [nonResidue]
    split
    · assumption
    · rename_i hz
      obtain ⟨y, h1, h2, h3⟩ := h
      refine ih (z + 1) ⟨y, ?_, by omega, h3⟩
      rcases Nat.lt_or_eq_of_le h1 with h | h
      · exact h
      · subst h; exact absurd h3 hz

theorem cast_squareTimes (m k u : Nat) : ((squareTimes m k u : Nat) : ZMod m) = (u : ZMod m) ^ 2 ^ k := by
  induction k generalizing u with
  | zero => simp [squareTimes]
  | succ k ih =>
    rw [squareTimes, ih, ZMod.natCast_mod, Nat.cast_mul, ← pow_two, ← pow_mul, pow_succ']

/-- `orderExponent` finds the least number of squarings that gives 1. -/
theorem orderExponent_spec {m : Nat} (hm : 1 < m) (fuel u i : Nat) (hu : u < m)
    (h : ∃ k < fuel, (u : ZMod m) ^ 2 ^ k = 1) :
    ∃ k < fuel, orderExponent m fuel u i = i + k ∧ (u : ZMod m) ^ 2 ^ k = 1 ∧
      ∀ j < k, (u : ZMod m) ^ 2 ^ j ≠ 1 := by
  induction fuel generalizing u i with
  | zero => obtain ⟨k, hk, _⟩ := h; omega
  | succ f ih =>
    rw [orderExponent]
    split
    · subst u; exact ⟨0, by omega, rfl, by simp, by omega⟩
    · rename_i hne
      have hc : (u : ZMod m) ≠ 1 := fun e => hne (cast_inj_of_lt hu hm (by simpa using e))
      have hsq : ((u * u % m : Nat) : ZMod m) = (u : ZMod m) ^ 2 := by
        rw [ZMod.natCast_mod, Nat.cast_mul, pow_two]
      have hstep : ∀ j, ((u * u % m : Nat) : ZMod m) ^ 2 ^ j = (u : ZMod m) ^ 2 ^ (j + 1) := by
        intro j; rw [hsq, ← pow_mul, ← pow_succ']
      obtain ⟨k, hk, hpow⟩ := h
      have hk0 : k ≠ 0 := by rintro rfl; exact hc (by simpa using hpow)
      obtain ⟨k', hk', he, h1, hmin⟩ := ih (u * u % m) (i + 1) (Nat.mod_lt _ (by omega))
        ⟨k - 1, by omega, by rw [hstep, show k - 1 + 1 = k by omega]; exact hpow⟩
      refine ⟨k' + 1, by omega, by rw [he]; omega, by rw [← hstep]; exact h1, fun j hj => ?_⟩
      rcases Nat.eq_zero_or_pos j with rfl | hpos
      · simpa using hc
      · have := hmin (j - 1) (by omega)
        rwa [hstep, show j - 1 + 1 = j by omega] at this

/-! ### The main loop (R237) -/

theorem tonelliLoop_spec {m : Nat} [Fact m.Prime] (n : ZMod m) (fuel bound c t r : Nat)
    (hfuel : bound ≤ fuel) (hb : 1 ≤ bound) (ht : t < m) (hr : r < m)
    (hroot : (r : ZMod m) ^ 2 = t * n) (htpow : (t : ZMod m) ^ 2 ^ (bound - 1) = 1)
    (hcpow : (c : ZMod m) ^ 2 ^ (bound - 1) = -1) :
    ((tonelliLoop m fuel bound c t r : Nat) : ZMod m) ^ 2 = n ∧ tonelliLoop m fuel bound c t r < m := by
  have hm : 1 < m := (Fact.out : m.Prime).one_lt
  induction fuel generalizing bound c t r with
  | zero => omega
  | succ f ih =>
    rw [tonelliLoop]
    split
    · subst t; exact ⟨by simpa using hroot, hr⟩
    · rename_i hne
      obtain ⟨i, hi, he, hpi, hmin⟩ := orderExponent_spec hm bound t 0 ht ⟨bound - 1, by omega, htpow⟩
      have hi1 : 1 ≤ i := by
        rcases Nat.eq_zero_or_pos i with rfl | h
        · exact absurd (cast_inj_of_lt ht hm (by simpa using hpi)) hne
        · exact h
      simp only [he, zero_add]
      have hbc := cast_squareTimes m (bound - i - 1) c
      generalize squareTimes m (bound - i - 1) c = b at hbc
      have hc' : ((b * b % m : Nat) : ZMod m) = (b : ZMod m) ^ 2 := by rw [ZMod.natCast_mod, Nat.cast_mul, pow_two]
      have hcp : ((b * b % m : Nat) : ZMod m) ^ 2 ^ (i - 1) = -1 := by
        rw [hc', hbc, ← hcpow, ← pow_mul, ← pow_mul, ← pow_succ', ← pow_add]
        congr 2
        omega
      have hy : (t : ZMod m) ^ 2 ^ (i - 1) = -1 := by
        have hsq : ((t : ZMod m) ^ 2 ^ (i - 1)) ^ 2 = 1 := by
          rw [← pow_mul, ← pow_succ, show i - 1 + 1 = i by omega]; exact hpi
        rcases sq_eq_one_iff.mp hsq with h | h
        · exact absurd h (hmin (i - 1) (by omega))
        · exact h
      refine ih i _ _ _ (by omega) hi1 (Nat.mod_lt _ (by omega)) (Nat.mod_lt _ (by omega)) ?_ ?_ hcp
      · rw [ZMod.natCast_mod, ZMod.natCast_mod, Nat.cast_mul, Nat.cast_mul, mul_pow, hroot, hc']; ring
      · rw [ZMod.natCast_mod, Nat.cast_mul, mul_pow, hcp, hy]; ring

/-! ### The whole engine -/

theorem exists_nonResidue {m : Nat} [Fact m.Prime] (hodd : m ≠ 2) :
    ∃ y, 2 ≤ y ∧ y < m ∧ (y : ZMod m) ^ (m / 2) = -1 := by
  have hm := (Fact.out : m.Prime)
  obtain ⟨a, ha⟩ := FiniteField.exists_nonsquare (F := ZMod m) (by rwa [ZMod.ringChar_zmod_n])
  have ha0 : a ≠ 0 := by rintro rfl; exact ha (IsSquare.zero)
  have hpow : a ^ (m / 2) = -1 := by
    rcases ZMod.pow_div_two_eq_neg_one_or_one m ha0 with h | h
    · exact absurd ((ZMod.euler_criterion m ha0).mpr h) ha
    · exact h
  refine ⟨a.val, ?_, ZMod.val_lt a, by rw [ZMod.natCast_zmod_val]; exact hpow⟩
  by_contra hlt
  have h01 : a.val = 0 ∨ a.val = 1 := by omega
  rcases h01 with h | h
  · exact ha0 ((ZMod.val_eq_zero a).mp h)
  · have : a = 1 := by rw [← ZMod.natCast_zmod_val a, h]; simp
    exact ha (this ▸ IsSquare.one)

/-- Tonelli–Shanks returns a root. -/
theorem tonelli_spec {n m : Nat} (hp : m.Prime) (h2 : m ≠ 2) (hm : m < 2 ^ 32)
    (heuler : powmod n ((m - 1) / 2) m = 1) : tonelli n m * tonelli n m % m = n % m ∧ tonelli n m < m := by
  have : Fact m.Prime := ⟨hp⟩
  have h1 : 1 < m := hp.one_lt
  have hodd : m % 2 = 1 := hp.eq_two_or_odd.resolve_left h2
  have hhalf : (m - 1) / 2 = m / 2 := by omega
  obtain ⟨hsplit, hqodd⟩ := splitTwo_spec 32 (m - 1) 0 (by omega) (by omega)
  have hz : powmod (nonResidue m m 2) ((m - 1) / 2) m = m - 1 := by
    obtain ⟨y, hy2, hym, hyp⟩ := exists_nonResidue (m := m) h2
    refine nonResidue_spec m m 2 ⟨y, hy2, by omega, ?_⟩
    rw [powmod_eq_pred_iff y h1 (by omega), hhalf]; exact hyp
  unfold tonelli
  generalize splitTwo 32 (m - 1) 0 = qs at hsplit hqodd
  obtain ⟨q, s⟩ := qs
  simp only [pow_zero, mul_one] at hsplit hqodd ⊢
  have hs : 1 ≤ s := by
    rcases Nat.eq_zero_or_pos s with rfl | h
    · simp at hsplit; omega
    · exact h
  have hqlt : q ≤ m - 1 := by
    rw [← hsplit]; exact Nat.le_mul_of_pos_right q (by positivity)
  have hexp : q * 2 ^ (s - 1) = (m - 1) / 2 := by
    have : 2 ^ s = 2 ^ (s - 1) * 2 := by rw [← pow_succ]; congr 1; omega
    rw [this, ← mul_assoc] at hsplit
    omega
  obtain ⟨hres, hlt⟩ := tonelliLoop_spec (n : ZMod m) s s (powmod (nonResidue m m 2) q m) (powmod n q m)
    (powmod n ((q + 1) / 2) m) le_rfl hs (powmod_lt _ (by omega) (by omega)) (powmod_lt _ (by omega) (by omega))
    (by
      rw [cast_powmod _ _ (by omega), cast_powmod _ _ (by omega), ← pow_mul, ← pow_succ]
      congr 1; omega)
    (by
      rw [cast_powmod _ _ (by omega), ← pow_mul, hexp]
      exact (powmod_eq_one_iff n h1 (by omega)).mp heuler)
    (by
      rw [cast_powmod _ _ (by omega), ← pow_mul, hexp]
      exact (powmod_eq_pred_iff _ h1 (by omega)).mp hz)
  refine ⟨?_, hlt⟩
  refine (ZMod.natCast_eq_natCast_iff _ _ m).mp ?_
  rw [Nat.cast_mul, ← pow_two]
  exact hres

/-- The engine's root is the smaller one and squares to n (R233, R239). -/
theorem sqrtmod_spec {n m : Nat} (hp : m.Prime) (h2 : m ≠ 2) (hm : m < 2 ^ 32) (hn0 : n ≠ 0) (hn : n < m)
    (heuler : powmod n ((m - 1) / 2) m = 1) :
    1 ≤ sqrtmod n m ∧ sqrtmod n m ≤ (m - 1) / 2 ∧ sqrtmod n m * sqrtmod n m % m = n := by
  obtain ⟨hr, hlt⟩ := tonelli_spec hp h2 hm heuler
  rw [Nat.mod_eq_of_lt hn] at hr
  have hodd : m % 2 = 1 := hp.eq_two_or_odd.resolve_left h2
  unfold sqrtmod
  generalize tonelli n m = r at hr hlt
  have hr0 : r ≠ 0 := by rintro rfl; simp at hr; omega
  refine ⟨by omega, by omega, ?_⟩
  rcases le_total r (m - r) with h | h
  · rw [min_eq_left h]; exact hr
  · rw [min_eq_right h]
    have hz : (m - r) * (m - r) % m = r * r % m := by
      have e : (((m - r) * (m - r) : Nat) : ZMod m) = ((r * r : Nat) : ZMod m) := by
        rw [Nat.cast_mul, Nat.cast_mul, Nat.cast_sub (by omega), ZMod.natCast_self]; ring
      exact (ZMod.natCast_eq_natCast_iff _ _ m).mp e
    rw [hz, hr]

/-- Of the residues in [1, (m-1)/2] at most one squares to n (R234). -/
theorem smallRoot_unique {m r r' : Nat} (hp : m.Prime) (hr1 : 1 ≤ r) (hr : r ≤ (m - 1) / 2) (hr1' : 1 ≤ r')
    (hr' : r' ≤ (m - 1) / 2) (h : r * r % m = r' * r' % m) : r = r' := by
  have : Fact m.Prime := ⟨hp⟩
  have h1 := hp.one_lt
  have e : (r : ZMod m) * r = (r' : ZMod m) * r' := by
    have := (ZMod.natCast_eq_natCast_iff (r * r) (r' * r') m).mpr h
    simpa using this
  rcases mul_self_eq_mul_self_iff.mp e with h | h
  · exact cast_inj_of_lt (by omega) (by omega) h
  · have hs : ((r + r' : Nat) : ZMod m) = 0 := by rw [Nat.cast_add, h]; simp
    have := (ZMod.natCast_eq_zero_iff (r + r') m).mp hs
    exact absurd (Nat.le_of_dvd (by omega) this) (by omega)

/-- Euler's criterion decides squares (R235). -/
theorem euler_iff_square {n m : Nat} (hp : m.Prime) (h2 : m ≠ 2) (hm : m < 2 ^ 32) (hn0 : n ≠ 0) (hn : n < m) :
    powmod n ((m - 1) / 2) m = 1 ↔ ∃ r < m, r * r % m = n := by
  have : Fact m.Prime := ⟨hp⟩
  have hodd : m % 2 = 1 := hp.eq_two_or_odd.resolve_left h2
  constructor
  · intro h
    obtain ⟨_, h2', h3⟩ := sqrtmod_spec hp h2 hm hn0 hn h
    exact ⟨_, by omega, h3⟩
  · rintro ⟨r, _, hr⟩
    have hnz : (n : ZMod m) ≠ 0 := by
      intro e
      exact absurd (Nat.le_of_dvd (by omega) ((ZMod.natCast_eq_zero_iff n m).mp e)) (by omega)
    rw [powmod_eq_one_iff n hp.one_lt (by omega), show (m - 1) / 2 = m / 2 by omega, ← ZMod.euler_criterion m hnz]
    refine ⟨(r : ZMod m), ?_⟩
    have : ((r * r : Nat) : ZMod m) = (n : ZMod m) := by
      rw [← ZMod.natCast_mod (r * r) m, hr]
    rw [← this, Nat.cast_mul]

theorem sqrtmod_lt (n : Nat) {m : Nat} (h : 0 < m) : sqrtmod n m < m := by
  unfold sqrtmod
  omega

end Sys2Proof.Machine
end

