-- ==== Sys2Proof/Laws/State.lean ====
section
/-! SUPPORT. One lemma per field per update of the state, so that no proof unfolds a record update. -/

namespace Sys2Proof.Machine

/-! ### setReg -/

@[simp] theorem State.setReg_x (s : State) (i : Reg) (v : Word) : (s.setReg i v).x = s.x.set i.val v i.isLt := rfl
@[simp] theorem State.setReg_modulus (s : State) (i : Reg) (v : Word) : (s.setReg i v).modulus = s.modulus := rfl
@[simp] theorem State.setReg_cfgValid (s : State) (i : Reg) (v : Word) : (s.setReg i v).cfgValid = s.cfgValid := rfl
@[simp] theorem State.setReg_modPrime (s : State) (i : Reg) (v : Word) : (s.setReg i v).modPrime = s.modPrime := rfl
@[simp] theorem State.setReg_cfgFault (s : State) (i : Reg) (v : Word) : (s.setReg i v).cfgFault = s.cfgFault := rfl
@[simp] theorem State.setReg_busy (s : State) (i : Reg) (v : Word) : (s.setReg i v).busy = s.busy := rfl
@[simp] theorem State.setReg_done (s : State) (i : Reg) (v : Word) : (s.setReg i v).done = s.done := rfl
@[simp] theorem State.setReg_dropped (s : State) (i : Reg) (v : Word) : (s.setReg i v).dropped = s.dropped := rfl
@[simp] theorem State.setReg_errcode (s : State) (i : Reg) (v : Word) : (s.setReg i v).errcode = s.errcode := rfl
@[simp] theorem State.setReg_arg (s : State) (i : Reg) (v : Word) : (s.setReg i v).arg = s.arg := rfl
@[simp] theorem State.setReg_lastcmd (s : State) (i : Reg) (v : Word) : (s.setReg i v).lastcmd = s.lastcmd := rfl
@[simp] theorem State.setReg_pending (s : State) (i : Reg) (v : Word) : (s.setReg i v).pending = s.pending := rfl
@[simp] theorem State.setReg_env (s : State) (i : Reg) (v : Word) : (s.setReg i v).env = s.env := rfl

/-! ### setArgLo -/

@[simp] theorem State.setArgLo_x (s : State) (v : Word) : (s.setArgLo v).x = s.x := rfl
@[simp] theorem State.setArgLo_modulus (s : State) (v : Word) : (s.setArgLo v).modulus = s.modulus := rfl
@[simp] theorem State.setArgLo_cfgValid (s : State) (v : Word) : (s.setArgLo v).cfgValid = s.cfgValid := rfl
@[simp] theorem State.setArgLo_modPrime (s : State) (v : Word) : (s.setArgLo v).modPrime = s.modPrime := rfl
@[simp] theorem State.setArgLo_cfgFault (s : State) (v : Word) : (s.setArgLo v).cfgFault = s.cfgFault := rfl
@[simp] theorem State.setArgLo_busy (s : State) (v : Word) : (s.setArgLo v).busy = s.busy := rfl
@[simp] theorem State.setArgLo_done (s : State) (v : Word) : (s.setArgLo v).done = s.done := rfl
@[simp] theorem State.setArgLo_dropped (s : State) (v : Word) : (s.setArgLo v).dropped = s.dropped := rfl
@[simp] theorem State.setArgLo_errcode (s : State) (v : Word) : (s.setArgLo v).errcode = s.errcode := rfl
@[simp] theorem State.setArgLo_arg (s : State) (v : Word) : (s.setArgLo v).arg = argHi s.arg ++ v := rfl
@[simp] theorem State.setArgLo_lastcmd (s : State) (v : Word) : (s.setArgLo v).lastcmd = s.lastcmd := rfl
@[simp] theorem State.setArgLo_pending (s : State) (v : Word) : (s.setArgLo v).pending = s.pending := rfl
@[simp] theorem State.setArgLo_env (s : State) (v : Word) : (s.setArgLo v).env = s.env := rfl

/-! ### setArgHi -/

@[simp] theorem State.setArgHi_x (s : State) (v : Word) : (s.setArgHi v).x = s.x := rfl
@[simp] theorem State.setArgHi_modulus (s : State) (v : Word) : (s.setArgHi v).modulus = s.modulus := rfl
@[simp] theorem State.setArgHi_cfgValid (s : State) (v : Word) : (s.setArgHi v).cfgValid = s.cfgValid := rfl
@[simp] theorem State.setArgHi_modPrime (s : State) (v : Word) : (s.setArgHi v).modPrime = s.modPrime := rfl
@[simp] theorem State.setArgHi_cfgFault (s : State) (v : Word) : (s.setArgHi v).cfgFault = s.cfgFault := rfl
@[simp] theorem State.setArgHi_busy (s : State) (v : Word) : (s.setArgHi v).busy = s.busy := rfl
@[simp] theorem State.setArgHi_done (s : State) (v : Word) : (s.setArgHi v).done = s.done := rfl
@[simp] theorem State.setArgHi_dropped (s : State) (v : Word) : (s.setArgHi v).dropped = s.dropped := rfl
@[simp] theorem State.setArgHi_errcode (s : State) (v : Word) : (s.setArgHi v).errcode = s.errcode := rfl
@[simp] theorem State.setArgHi_arg (s : State) (v : Word) : (s.setArgHi v).arg = v ++ argLo s.arg := rfl
@[simp] theorem State.setArgHi_lastcmd (s : State) (v : Word) : (s.setArgHi v).lastcmd = s.lastcmd := rfl
@[simp] theorem State.setArgHi_pending (s : State) (v : Word) : (s.setArgHi v).pending = s.pending := rfl
@[simp] theorem State.setArgHi_env (s : State) (v : Word) : (s.setArgHi v).env = s.env := rfl

/-! ### flagsAccepted -/

@[simp] theorem State.flagsAccepted_x (s : State) : (s.flagsAccepted).x = s.x := rfl
@[simp] theorem State.flagsAccepted_modulus (s : State) : (s.flagsAccepted).modulus = s.modulus := rfl
@[simp] theorem State.flagsAccepted_cfgValid (s : State) : (s.flagsAccepted).cfgValid = s.cfgValid := rfl
@[simp] theorem State.flagsAccepted_modPrime (s : State) : (s.flagsAccepted).modPrime = s.modPrime := rfl
@[simp] theorem State.flagsAccepted_cfgFault (s : State) : (s.flagsAccepted).cfgFault = s.cfgFault := rfl
@[simp] theorem State.flagsAccepted_busy (s : State) : (s.flagsAccepted).busy = true := rfl
@[simp] theorem State.flagsAccepted_done (s : State) : (s.flagsAccepted).done = false := rfl
@[simp] theorem State.flagsAccepted_dropped (s : State) : (s.flagsAccepted).dropped = s.dropped := rfl
@[simp] theorem State.flagsAccepted_errcode (s : State) : (s.flagsAccepted).errcode = 0 := rfl
@[simp] theorem State.flagsAccepted_arg (s : State) : (s.flagsAccepted).arg = s.arg := rfl
@[simp] theorem State.flagsAccepted_lastcmd (s : State) : (s.flagsAccepted).lastcmd = s.lastcmd := rfl
@[simp] theorem State.flagsAccepted_pending (s : State) : (s.flagsAccepted).pending = s.pending := rfl
@[simp] theorem State.flagsAccepted_env (s : State) : (s.flagsAccepted).env = s.env := rfl

/-! ### flagsCompleted -/

@[simp] theorem State.flagsCompleted_x (s : State) (c : BitVec 4) : (s.flagsCompleted c).x = s.x := rfl
@[simp] theorem State.flagsCompleted_modulus (s : State) (c : BitVec 4) : (s.flagsCompleted c).modulus = s.modulus := rfl
@[simp] theorem State.flagsCompleted_cfgValid (s : State) (c : BitVec 4) : (s.flagsCompleted c).cfgValid = s.cfgValid := rfl
@[simp] theorem State.flagsCompleted_modPrime (s : State) (c : BitVec 4) : (s.flagsCompleted c).modPrime = s.modPrime := rfl
@[simp] theorem State.flagsCompleted_cfgFault (s : State) (c : BitVec 4) : (s.flagsCompleted c).cfgFault = s.cfgFault := rfl
@[simp] theorem State.flagsCompleted_busy (s : State) (c : BitVec 4) : (s.flagsCompleted c).busy = false := rfl
@[simp] theorem State.flagsCompleted_done (s : State) (c : BitVec 4) : (s.flagsCompleted c).done = true := rfl
@[simp] theorem State.flagsCompleted_dropped (s : State) (c : BitVec 4) : (s.flagsCompleted c).dropped = s.dropped := rfl
@[simp] theorem State.flagsCompleted_errcode (s : State) (c : BitVec 4) : (s.flagsCompleted c).errcode = c := rfl
@[simp] theorem State.flagsCompleted_arg (s : State) (c : BitVec 4) : (s.flagsCompleted c).arg = s.arg := rfl
@[simp] theorem State.flagsCompleted_lastcmd (s : State) (c : BitVec 4) : (s.flagsCompleted c).lastcmd = s.lastcmd := rfl
@[simp] theorem State.flagsCompleted_pending (s : State) (c : BitVec 4) : (s.flagsCompleted c).pending = s.pending := rfl
@[simp] theorem State.flagsCompleted_env (s : State) (c : BitVec 4) : (s.flagsCompleted c).env = s.env := rfl

/-! ### accept -/

@[simp] theorem State.accept_x (s : State) (op : Operation) : (s.accept op).x = s.x := rfl
@[simp] theorem State.accept_modulus (s : State) (op : Operation) : (s.accept op).modulus = s.modulus := rfl
@[simp] theorem State.accept_cfgValid (s : State) (op : Operation) : (s.accept op).cfgValid = s.cfgValid := rfl
@[simp] theorem State.accept_modPrime (s : State) (op : Operation) : (s.accept op).modPrime = s.modPrime := rfl
@[simp] theorem State.accept_cfgFault (s : State) (op : Operation) : (s.accept op).cfgFault = s.cfgFault := rfl
@[simp] theorem State.accept_busy (s : State) (op : Operation) : (s.accept op).busy = true := rfl
@[simp] theorem State.accept_done (s : State) (op : Operation) : (s.accept op).done = false := rfl
@[simp] theorem State.accept_dropped (s : State) (op : Operation) : (s.accept op).dropped = s.dropped := rfl
@[simp] theorem State.accept_errcode (s : State) (op : Operation) : (s.accept op).errcode = 0 := rfl
@[simp] theorem State.accept_arg (s : State) (op : Operation) : (s.accept op).arg = s.arg := rfl
@[simp] theorem State.accept_lastcmd (s : State) (op : Operation) : (s.accept op).lastcmd = s.lastcmd := rfl
@[simp] theorem State.accept_pending (s : State) (op : Operation) : (s.accept op).pending = some op := rfl
@[simp] theorem State.accept_env (s : State) (op : Operation) : (s.accept op).env = s.env.drawLatency op := rfl

/-! ### drop -/

@[simp] theorem State.drop_x (s : State) : (s.drop).x = s.x := rfl
@[simp] theorem State.drop_modulus (s : State) : (s.drop).modulus = s.modulus := rfl
@[simp] theorem State.drop_cfgValid (s : State) : (s.drop).cfgValid = s.cfgValid := rfl
@[simp] theorem State.drop_modPrime (s : State) : (s.drop).modPrime = s.modPrime := rfl
@[simp] theorem State.drop_cfgFault (s : State) : (s.drop).cfgFault = s.cfgFault := rfl
@[simp] theorem State.drop_busy (s : State) : (s.drop).busy = s.busy := rfl
@[simp] theorem State.drop_done (s : State) : (s.drop).done = s.done := rfl
@[simp] theorem State.drop_dropped (s : State) : (s.drop).dropped = true := rfl
@[simp] theorem State.drop_errcode (s : State) : (s.drop).errcode = s.errcode := rfl
@[simp] theorem State.drop_arg (s : State) : (s.drop).arg = s.arg := rfl
@[simp] theorem State.drop_lastcmd (s : State) : (s.drop).lastcmd = s.lastcmd := rfl
@[simp] theorem State.drop_pending (s : State) : (s.drop).pending = s.pending := rfl
@[simp] theorem State.drop_env (s : State) : (s.drop).env = s.env := rfl

/-! ### raiseError -/

@[simp] theorem State.raiseError_x (s : State) (e : ErrorCode) : (s.raiseError e).x = s.x := rfl
@[simp] theorem State.raiseError_modulus (s : State) (e : ErrorCode) : (s.raiseError e).modulus = s.modulus := rfl
@[simp] theorem State.raiseError_cfgValid (s : State) (e : ErrorCode) : (s.raiseError e).cfgValid = s.cfgValid := rfl
@[simp] theorem State.raiseError_modPrime (s : State) (e : ErrorCode) : (s.raiseError e).modPrime = s.modPrime := rfl
@[simp] theorem State.raiseError_cfgFault (s : State) (e : ErrorCode) : (s.raiseError e).cfgFault = s.cfgFault := rfl
@[simp] theorem State.raiseError_busy (s : State) (e : ErrorCode) : (s.raiseError e).busy = false := rfl
@[simp] theorem State.raiseError_done (s : State) (e : ErrorCode) : (s.raiseError e).done = true := rfl
@[simp] theorem State.raiseError_dropped (s : State) (e : ErrorCode) : (s.raiseError e).dropped = s.dropped := rfl
@[simp] theorem State.raiseError_errcode (s : State) (e : ErrorCode) : (s.raiseError e).errcode = e.code := rfl
@[simp] theorem State.raiseError_arg (s : State) (e : ErrorCode) : (s.raiseError e).arg = s.arg := rfl
@[simp] theorem State.raiseError_lastcmd (s : State) (e : ErrorCode) : (s.raiseError e).lastcmd = s.lastcmd := rfl
@[simp] theorem State.raiseError_pending (s : State) (e : ErrorCode) : (s.raiseError e).pending = none := rfl
@[simp] theorem State.raiseError_env (s : State) (e : ErrorCode) : (s.raiseError e).env = s.env := rfl

/-! ### finishCommand -/

@[simp] theorem State.finishCommand_x (s : State) (rd : Reg) (v : Nat) : (s.finishCommand rd v).x = s.x.set rd.val (BitVec.ofNat 32 v) rd.isLt := rfl
@[simp] theorem State.finishCommand_modulus (s : State) (rd : Reg) (v : Nat) : (s.finishCommand rd v).modulus = s.modulus := rfl
@[simp] theorem State.finishCommand_cfgValid (s : State) (rd : Reg) (v : Nat) : (s.finishCommand rd v).cfgValid = s.cfgValid := rfl
@[simp] theorem State.finishCommand_modPrime (s : State) (rd : Reg) (v : Nat) : (s.finishCommand rd v).modPrime = s.modPrime := rfl
@[simp] theorem State.finishCommand_cfgFault (s : State) (rd : Reg) (v : Nat) : (s.finishCommand rd v).cfgFault = s.cfgFault := rfl
@[simp] theorem State.finishCommand_busy (s : State) (rd : Reg) (v : Nat) : (s.finishCommand rd v).busy = false := rfl
@[simp] theorem State.finishCommand_done (s : State) (rd : Reg) (v : Nat) : (s.finishCommand rd v).done = true := rfl
@[simp] theorem State.finishCommand_dropped (s : State) (rd : Reg) (v : Nat) : (s.finishCommand rd v).dropped = s.dropped := rfl
@[simp] theorem State.finishCommand_errcode (s : State) (rd : Reg) (v : Nat) : (s.finishCommand rd v).errcode = 0 := rfl
@[simp] theorem State.finishCommand_arg (s : State) (rd : Reg) (v : Nat) : (s.finishCommand rd v).arg = s.arg := rfl
@[simp] theorem State.finishCommand_lastcmd (s : State) (rd : Reg) (v : Nat) : (s.finishCommand rd v).lastcmd = s.lastcmd := rfl
@[simp] theorem State.finishCommand_pending (s : State) (rd : Reg) (v : Nat) : (s.finishCommand rd v).pending = none := rfl
@[simp] theorem State.finishCommand_env (s : State) (rd : Reg) (v : Nat) : (s.finishCommand rd v).env = s.env := rfl

/-! ### blockReset -/

@[simp] theorem State.blockReset_x (s : State) : (s.blockReset).x = Vector.replicate 8 0 := rfl
@[simp] theorem State.blockReset_modulus (s : State) : (s.blockReset).modulus = 0 := rfl
@[simp] theorem State.blockReset_cfgValid (s : State) : (s.blockReset).cfgValid = false := rfl
@[simp] theorem State.blockReset_modPrime (s : State) : (s.blockReset).modPrime = false := rfl
@[simp] theorem State.blockReset_cfgFault (s : State) : (s.blockReset).cfgFault = false := rfl
@[simp] theorem State.blockReset_busy (s : State) : (s.blockReset).busy = false := rfl
@[simp] theorem State.blockReset_done (s : State) : (s.blockReset).done = false := rfl
@[simp] theorem State.blockReset_dropped (s : State) : (s.blockReset).dropped = false := rfl
@[simp] theorem State.blockReset_errcode (s : State) : (s.blockReset).errcode = 0 := rfl
@[simp] theorem State.blockReset_arg (s : State) : (s.blockReset).arg = 0 := rfl
@[simp] theorem State.blockReset_lastcmd (s : State) : (s.blockReset).lastcmd = 0 := rfl
@[simp] theorem State.blockReset_pending (s : State) : (s.blockReset).pending = none := rfl
@[simp] theorem State.blockReset_env (s : State) : (s.blockReset).env = s.env := rfl

/-! ### withEvents -/

@[simp] theorem State.withEvents_x (s : State) (es : List Event) : (s.withEvents es).x = s.x := rfl
@[simp] theorem State.withEvents_modulus (s : State) (es : List Event) : (s.withEvents es).modulus = s.modulus := rfl
@[simp] theorem State.withEvents_cfgValid (s : State) (es : List Event) : (s.withEvents es).cfgValid = s.cfgValid := rfl
@[simp] theorem State.withEvents_modPrime (s : State) (es : List Event) : (s.withEvents es).modPrime = s.modPrime := rfl
@[simp] theorem State.withEvents_cfgFault (s : State) (es : List Event) : (s.withEvents es).cfgFault = s.cfgFault := rfl
@[simp] theorem State.withEvents_busy (s : State) (es : List Event) : (s.withEvents es).busy = s.busy := rfl
@[simp] theorem State.withEvents_done (s : State) (es : List Event) : (s.withEvents es).done = s.done := rfl
@[simp] theorem State.withEvents_dropped (s : State) (es : List Event) : (s.withEvents es).dropped = s.dropped := rfl
@[simp] theorem State.withEvents_errcode (s : State) (es : List Event) : (s.withEvents es).errcode = s.errcode := rfl
@[simp] theorem State.withEvents_arg (s : State) (es : List Event) : (s.withEvents es).arg = s.arg := rfl
@[simp] theorem State.withEvents_lastcmd (s : State) (es : List Event) : (s.withEvents es).lastcmd = s.lastcmd := rfl
@[simp] theorem State.withEvents_pending (s : State) (es : List Event) : (s.withEvents es).pending = s.pending := rfl
@[simp] theorem State.withEvents_env (s : State) (es : List Event) : (s.withEvents es).env = { s.env with events := es } := rfl

/-! ### withEnv -/

@[simp] theorem State.withEnv_x (s : State) (e : Env) : (s.withEnv e).x = s.x := rfl
@[simp] theorem State.withEnv_modulus (s : State) (e : Env) : (s.withEnv e).modulus = s.modulus := rfl
@[simp] theorem State.withEnv_cfgValid (s : State) (e : Env) : (s.withEnv e).cfgValid = s.cfgValid := rfl
@[simp] theorem State.withEnv_modPrime (s : State) (e : Env) : (s.withEnv e).modPrime = s.modPrime := rfl
@[simp] theorem State.withEnv_cfgFault (s : State) (e : Env) : (s.withEnv e).cfgFault = s.cfgFault := rfl
@[simp] theorem State.withEnv_busy (s : State) (e : Env) : (s.withEnv e).busy = s.busy := rfl
@[simp] theorem State.withEnv_done (s : State) (e : Env) : (s.withEnv e).done = s.done := rfl
@[simp] theorem State.withEnv_dropped (s : State) (e : Env) : (s.withEnv e).dropped = s.dropped := rfl
@[simp] theorem State.withEnv_errcode (s : State) (e : Env) : (s.withEnv e).errcode = s.errcode := rfl
@[simp] theorem State.withEnv_arg (s : State) (e : Env) : (s.withEnv e).arg = s.arg := rfl
@[simp] theorem State.withEnv_lastcmd (s : State) (e : Env) : (s.withEnv e).lastcmd = s.lastcmd := rfl
@[simp] theorem State.withEnv_pending (s : State) (e : Env) : (s.withEnv e).pending = s.pending := rfl
@[simp] theorem State.withEnv_env (s : State) (e : Env) : (s.withEnv e).env = e := rfl
@[simp] theorem State.withEnv_status (s : State) (e : Env) : (s.withEnv e).status = s.status := rfl
@[simp] theorem State.withEnv_reg (s : State) (e : Env) (i : Reg) : (s.withEnv e).reg i = s.reg i := rfl
theorem State.withEnv_readReg (s : State) (e : Env) (r : RegName) : (s.withEnv e).readReg r = s.readReg r := by cases r <;> rfl

/-! ### hostRead -/

@[simp] theorem State.hostRead_x (s : State) (r : RegName) : (s.hostRead r).x = s.x := rfl
@[simp] theorem State.hostRead_modulus (s : State) (r : RegName) : (s.hostRead r).modulus = s.modulus := rfl
@[simp] theorem State.hostRead_cfgValid (s : State) (r : RegName) : (s.hostRead r).cfgValid = s.cfgValid := rfl
@[simp] theorem State.hostRead_modPrime (s : State) (r : RegName) : (s.hostRead r).modPrime = s.modPrime := rfl
@[simp] theorem State.hostRead_cfgFault (s : State) (r : RegName) : (s.hostRead r).cfgFault = s.cfgFault := rfl
@[simp] theorem State.hostRead_busy (s : State) (r : RegName) : (s.hostRead r).busy = s.busy := rfl
@[simp] theorem State.hostRead_done (s : State) (r : RegName) : (s.hostRead r).done = s.done := rfl
@[simp] theorem State.hostRead_dropped (s : State) (r : RegName) : (s.hostRead r).dropped = s.dropped := rfl
@[simp] theorem State.hostRead_errcode (s : State) (r : RegName) : (s.hostRead r).errcode = s.errcode := rfl
@[simp] theorem State.hostRead_arg (s : State) (r : RegName) : (s.hostRead r).arg = s.arg := rfl
@[simp] theorem State.hostRead_lastcmd (s : State) (r : RegName) : (s.hostRead r).lastcmd = s.lastcmd := rfl
@[simp] theorem State.hostRead_pending (s : State) (r : RegName) : (s.hostRead r).pending = s.pending := rfl
@[simp] theorem State.hostRead_env (s : State) (r : RegName) : (s.hostRead r).env = { s.env with reads := s.readReg r :: s.env.reads } := rfl

/-! ### assertReset -/

@[simp] theorem State.assertReset_x (s : State) : (s.assertReset).x = Vector.replicate 8 0 := rfl
@[simp] theorem State.assertReset_modulus (s : State) : (s.assertReset).modulus = 0 := rfl
@[simp] theorem State.assertReset_cfgValid (s : State) : (s.assertReset).cfgValid = false := rfl
@[simp] theorem State.assertReset_modPrime (s : State) : (s.assertReset).modPrime = false := rfl
@[simp] theorem State.assertReset_cfgFault (s : State) : (s.assertReset).cfgFault = false := rfl
@[simp] theorem State.assertReset_busy (s : State) : (s.assertReset).busy = false := rfl
@[simp] theorem State.assertReset_done (s : State) : (s.assertReset).done = false := rfl
@[simp] theorem State.assertReset_dropped (s : State) : (s.assertReset).dropped = false := rfl
@[simp] theorem State.assertReset_errcode (s : State) : (s.assertReset).errcode = 0 := rfl
@[simp] theorem State.assertReset_arg (s : State) : (s.assertReset).arg = 0 := rfl
@[simp] theorem State.assertReset_lastcmd (s : State) : (s.assertReset).lastcmd = 0 := rfl
@[simp] theorem State.assertReset_pending (s : State) : (s.assertReset).pending = none := rfl
@[simp] theorem State.assertReset_env (s : State) : (s.assertReset).env = { s.env with resetLine := true } := rfl

/-! ### releaseReset -/

@[simp] theorem State.releaseReset_x (s : State) : (s.releaseReset).x = s.x := rfl
@[simp] theorem State.releaseReset_modulus (s : State) : (s.releaseReset).modulus = s.modulus := rfl
@[simp] theorem State.releaseReset_cfgValid (s : State) : (s.releaseReset).cfgValid = s.cfgValid := rfl
@[simp] theorem State.releaseReset_modPrime (s : State) : (s.releaseReset).modPrime = s.modPrime := rfl
@[simp] theorem State.releaseReset_cfgFault (s : State) : (s.releaseReset).cfgFault = s.cfgFault := rfl
@[simp] theorem State.releaseReset_busy (s : State) : (s.releaseReset).busy = s.busy := rfl
@[simp] theorem State.releaseReset_done (s : State) : (s.releaseReset).done = s.done := rfl
@[simp] theorem State.releaseReset_dropped (s : State) : (s.releaseReset).dropped = s.dropped := rfl
@[simp] theorem State.releaseReset_errcode (s : State) : (s.releaseReset).errcode = s.errcode := rfl
@[simp] theorem State.releaseReset_arg (s : State) : (s.releaseReset).arg = s.arg := rfl
@[simp] theorem State.releaseReset_lastcmd (s : State) : (s.releaseReset).lastcmd = s.lastcmd := rfl
@[simp] theorem State.releaseReset_pending (s : State) : (s.releaseReset).pending = s.pending := rfl
@[simp] theorem State.releaseReset_env (s : State) : (s.releaseReset).env = { s.env with resetLine := false } := rfl

/-! ### schedule: it changes nothing but whose turn it is and the delay left -/

@[simp] theorem State.schedule_x (s : State) : s.schedule.x = s.x := by
  unfold State.schedule; split <;> rfl
@[simp] theorem State.schedule_modulus (s : State) : s.schedule.modulus = s.modulus := by
  unfold State.schedule; split <;> rfl
@[simp] theorem State.schedule_cfgValid (s : State) : s.schedule.cfgValid = s.cfgValid := by
  unfold State.schedule; split <;> rfl
@[simp] theorem State.schedule_modPrime (s : State) : s.schedule.modPrime = s.modPrime := by
  unfold State.schedule; split <;> rfl
@[simp] theorem State.schedule_cfgFault (s : State) : s.schedule.cfgFault = s.cfgFault := by
  unfold State.schedule; split <;> rfl
@[simp] theorem State.schedule_busy (s : State) : s.schedule.busy = s.busy := by
  unfold State.schedule; split <;> rfl
@[simp] theorem State.schedule_done (s : State) : s.schedule.done = s.done := by
  unfold State.schedule; split <;> rfl
@[simp] theorem State.schedule_dropped (s : State) : s.schedule.dropped = s.dropped := by
  unfold State.schedule; split <;> rfl
@[simp] theorem State.schedule_errcode (s : State) : s.schedule.errcode = s.errcode := by
  unfold State.schedule; split <;> rfl
@[simp] theorem State.schedule_arg (s : State) : s.schedule.arg = s.arg := by
  unfold State.schedule; split <;> rfl
@[simp] theorem State.schedule_lastcmd (s : State) : s.schedule.lastcmd = s.lastcmd := by
  unfold State.schedule; split <;> rfl
@[simp] theorem State.schedule_pending (s : State) : s.schedule.pending = s.pending := by
  unfold State.schedule; split <;> rfl
@[simp] theorem State.schedule_events (s : State) : s.schedule.env.events = s.env.events := by
  unfold State.schedule; split <;> rfl
@[simp] theorem State.schedule_reads (s : State) : s.schedule.env.reads = s.env.reads := by
  unfold State.schedule; split <;> rfl
@[simp] theorem State.schedule_resetLine (s : State) : s.schedule.env.resetLine = s.env.resetLine := by
  unfold State.schedule; split <;> rfl
@[simp] theorem State.schedule_latencies (s : State) : s.schedule.env.latencies = s.env.latencies := by
  unfold State.schedule; split <;> rfl
@[simp] theorem State.schedule_arrivals (s : State) : s.schedule.env.arrivals = s.env.arrivals := by
  unfold State.schedule; split <;> rfl
@[simp] theorem State.schedule_accepted (s : State) : s.schedule.env.accepted = s.env.accepted := by
  unfold State.schedule; split <;> rfl

/-! ### drawLatency -/

@[simp] theorem Env.drawLatency_turn (op : Operation) (e : Env) : (e.drawLatency op).turn = e.turn := by
  unfold Env.drawLatency; split <;> rfl
@[simp] theorem Env.drawLatency_events (op : Operation) (e : Env) : (e.drawLatency op).events = e.events := by
  unfold Env.drawLatency; split <;> rfl
@[simp] theorem Env.drawLatency_arrivals (op : Operation) (e : Env) : (e.drawLatency op).arrivals = e.arrivals := by
  unfold Env.drawLatency; split <;> rfl
@[simp] theorem Env.drawLatency_reads (op : Operation) (e : Env) : (e.drawLatency op).reads = e.reads := by
  unfold Env.drawLatency; split <;> rfl
@[simp] theorem Env.drawLatency_resetLine (op : Operation) (e : Env) : (e.drawLatency op).resetLine = e.resetLine := by
  unfold Env.drawLatency; split <;> rfl
@[simp] theorem Env.drawLatency_accepted (op : Operation) (e : Env) : (e.drawLatency op).accepted = e.accepted + 1 := by
  unfold Env.drawLatency; split <;> rfl

/-! ### The next event of the outside world -/

/-- An arrival that is due comes before the host's next action (R302). -/
theorem Env.next_arrival {e : Env} {a : Event} {more : List (Nat × Event)} (h : e.arrivals = (0, a) :: more) :
    e.next = some (a, { e with arrivals := more }) := by
  simp [Env.next, h]

/-- With no arrival due the host's next action comes first. -/
theorem Env.next_host {e : Env} {a : Event} {rest : List Event} (h : e.events = a :: rest)
    (hd : ∀ b more, e.arrivals ≠ (0, b) :: more) :
    e.next = some (a, { e with arrivals := countDown e.arrivals, events := rest }) := by
  unfold Env.next
  split
  · exact absurd ‹_› (hd _ _)
  · simp_all
  · simp_all

/-- With no arrival at all nothing but the host's list moves. -/
theorem Env.next_alone {e : Env} {a : Event} {rest : List Event} (h : e.events = a :: rest) (ha : e.arrivals = []) :
    e.next = some (a, { e with events := rest }) := by
  rw [Env.next_host h (by simp [ha]), ha]
  cases e
  simp_all [countDown]

/-- Taking an event moves only what is to come. -/
theorem Env.next_frame {e after : Env} {a : Event} (h : e.next = some (a, after)) :
    after = { e with arrivals := after.arrivals, events := after.events } := by
  unfold Env.next at h
  split at h <;> simp only [Option.some.injEq, Prod.mk.injEq, reduceCtorEq] at h <;> obtain ⟨-, rfl⟩ := h <;> rfl

/-! ### Residue registers -/

/-- A register write is read back (R22). -/
@[simp] theorem State.reg_setReg_same (s : State) (i : Reg) (v : Word) : (s.setReg i v).reg i = v := by
  simp [State.reg, State.setReg, Vector.get_eq_getElem]

/-- A register write leaves every other register alone (R22: none is aliased). -/
theorem State.reg_setReg_ne (s : State) {i j : Reg} (v : Word) (h : j ≠ i) : (s.setReg i v).reg j = s.reg j := by
  have : i.val ≠ j.val := fun e => h (Fin.ext e.symm)
  simp [State.reg, State.setReg, Vector.get_eq_getElem, this]

theorem State.reg_setReg (s : State) (i j : Reg) (v : Word) :
    (s.setReg i v).reg j = if j = i then v else s.reg j := by
  split
  · subst j; exact State.reg_setReg_same s i v
  · exact State.reg_setReg_ne s v ‹_›

/-- Two states with the same register file read the same registers. -/
theorem State.reg_congr {s t : State} (h : t.x = s.x) (i : Reg) : t.reg i = s.reg i := by
  simp [State.reg, h]

/-- A finished command's destination holds its result. -/
theorem State.reg_finishCommand (s : State) (rd j : Reg) (v : Nat) :
    (s.finishCommand rd v).reg j = if j = rd then BitVec.ofNat 32 v else s.reg j :=
  State.reg_setReg s rd j (BitVec.ofNat 32 v)

/-- After reset every residue register reads 0 (R45). -/
@[simp] theorem State.reg_blockReset (s : State) (i : Reg) : s.blockReset.reg i = 0 := by
  simp [State.reg, Vector.get_eq_getElem]

/-! ### The halves of ARG (R37) -/

@[simp] theorem argLo_append (a b : Word) : argLo (a ++ b) = b := by
  apply BitVec.eq_of_getLsbD_eq
  intro j hj
  have h := BitVec.getLsbD_append (x := a) (y := b) (i := j)
  rw [if_pos hj] at h
  rw [argLo, BitVec.getLsbD_extractLsb', Nat.zero_add, ← h]
  simp [hj]

@[simp] theorem argHi_append (a b : Word) : argHi (a ++ b) = a := by
  apply BitVec.eq_of_getLsbD_eq
  intro j hj
  have h := BitVec.getLsbD_append (x := a) (y := b) (i := 32 + j)
  rw [if_neg (by omega), Nat.add_sub_cancel_left] at h
  rw [argHi, BitVec.getLsbD_extractLsb', ← h]
  simp [hj]

/-- ARG is its two halves (R37). -/
@[simp] theorem argHi_append_argLo (w : DWord) : argHi w ++ argLo w = w := by
  apply BitVec.eq_of_getLsbD_eq
  intro j hj
  have h := BitVec.getLsbD_append (x := argHi w) (y := argLo w) (i := j)
  rw [show (argHi w ++ argLo w : DWord).getLsbD j = _ from h]
  simp only [argHi, argLo, BitVec.getLsbD_extractLsb']
  split
  · simp [*]
  · rw [show 32 + (j - 32) = j by omega]
    simp; omega

end Sys2Proof.Machine
end

