-- ==== Sys2Proof/Laws/Ops.lean ====
section
/-! SUPPORT. What each shared operation, each meaning and the step can do, said once. -/

namespace Sys2Proof.Machine

/-! ### Host writes -/

theorem writeCmd_busy (w : Word) {s : State} (h : s.busy = true) : s.writeCmd w = s.drop := by
  simp [State.writeCmd, h]

theorem writeCmd_idle (w : Word) {s : State} (h : s.busy = false) :
    s.writeCmd w = { s.accept (.command (s.snapshot w)) with lastcmd := w } := by
  simp [State.writeCmd, h]

theorem writeModulus_accepted (w : Word) {s : State} (h : s.configurable = true) :
    s.writeModulus w = s.accept (.config w) := by
  simp [State.writeModulus, h]

theorem writeModulus_dropped (w : Word) {s : State} (h : s.configurable = false) : s.writeModulus w = s.drop := by
  simp [State.writeModulus, h]

theorem writeCtrl_reset {v : Word} (s : State) (h : v.getLsbD 0 = true) : s.writeCtrl v = s.blockReset := by
  simp only [State.writeCtrl, h, if_true]

theorem writeCtrl_nothing {v : Word} (s : State) (h : v.getLsbD 0 = false) : s.writeCtrl v = s := by
  simp only [State.writeCtrl, h, Bool.false_eq_true, if_false]

/-! ### The common checks (R124, R125) -/

theorem commonChecks_configured {snap : Snap} (own : Snap → Result) (h : snap.m ≠ 0) :
    commonChecks snap own = own snap := by
  rw [commonChecks, if_neg h]

theorem commonChecks_unconfigured {snap : Snap} (own : Snap → Result) (h : snap.m = 0) :
    commonChecks snap own = .raise (if snap.F then .invalidModulusConfig else .notConfigured) := by
  simp only [commonChecks, h, if_true]
  split <;> rfl

/-! ### The meanings -/

/-- On the host's turn a command is a write of its word to CMD. -/
theorem runCommand_host (i : Instr) (rd : Reg) (own : Snap → Result) {s : State} (h : s.env.turn = .host) :
    runCommand i rd own s = .next (s.writeCmd (encodeWord i)) := by
  simp [runCommand, h]

/-- On the engine's turn, with a command in flight, a command is its completion step. -/
theorem runCommand_engine (i : Instr) (rd : Reg) (own : Snap → Result) {s : State} {snap : Snap}
    (h : s.env.turn = .engine) (hp : s.pending = some (.command snap)) :
    runCommand i rd own s = .next (s.completeCommand rd (commonChecks snap own)) := by
  simp [runCommand, h, hp]

/-- With nothing in flight a command is a write of its word to CMD, whoever's turn it is. -/
theorem runCommand_quiescent (i : Instr) (rd : Reg) (own : Snap → Result) {s : State} (h : s.pending = none) :
    runCommand i rd own s = .next (s.writeCmd (encodeWord i)) := by
  unfold runCommand
  split
  · simp_all
  · rfl

/-- A command's destination and its own outcome; none for the two register-write operations. -/
def ownOutcome : Instr → Option (Reg × (Snap → Result))
  | .loads rd => some (rd, loadsResult)
  | .loadu rd => some (rd, loaduResult)
  | .mul rd _ _ => some (rd, mulResult)
  | .pow rd _ => some (rd, powResult)
  | .inv rd _ => some (rd, invResult)
  | .sqrt rd _ => some (rd, sqrtResult)
  | .config _ | .srst _ => none

/-- Every command is `runCommand` of its own outcome. -/
theorem exec_command {i : Instr} {rd : Reg} {own : Snap → Result} (h : ownOutcome i = some (rd, own)) (s : State) :
    exec i s = runCommand i rd own s := by
  cases i <;> simp only [ownOutcome, Option.some.injEq, Prod.mk.injEq, reduceCtorEq] at h <;>
    obtain ⟨rfl, rfl⟩ := h <;> rfl

/-- A decoded word is a command whose destination is the word's RD field. -/
theorem ownOutcome_of_decode {w : Word} {i : Instr} (h : decodeCmd w = .legal i) :
    ∃ own, ownOutcome i = some (rdField w, own) := by
  obtain rfl | rfl | rfl | rfl | rfl | rfl := decodeCmd_cases h <;> exact ⟨_, rfl⟩

theorem exec_config_host (w : Word) {s : State} (h : s.env.turn = .host) :
    exec (.config w) s = .next (s.writeModulus w) := by
  simp [exec, execConfig, h]

theorem exec_config_quiescent (w : Word) {s : State} (h : s.pending = none) :
    exec (.config w) s = .next (s.writeModulus w) := by
  change execConfig w s = _
  unfold execConfig
  split
  · simp_all
  · rfl

theorem exec_config_engine (w v : Word) {s : State} (h : s.env.turn = .engine) (hp : s.pending = some (.config v)) :
    exec (.config w) s = .next (s.completeConfig v (isPrime v.toNat)) := by
  simp only [exec, execConfig, h, hp]

theorem exec_srst (v : Word) (s : State) : exec (.srst v) s = .next (s.writeCtrl v) := rfl

/-- On the host's turn, or with nothing in flight, an operation is its register write. -/
theorem exec_issue (i : Instr) {s : State} (h : s.env.turn = .host ∨ s.pending = none) :
    exec i s = .next (match i with
      | .config w => s.writeModulus w
      | .srst v => s.writeCtrl v
      | j => s.writeCmd (encodeWord j)) := by
  cases i with
  | config w => exact h.elim (exec_config_host w) (exec_config_quiescent w)
  | srst v => rfl
  | _ => exact h.elim (runCommand_host _ _ _) (runCommand_quiescent _ _ _)

/-! ### Results are residues (R23) -/

theorem uint64_bounds (w : DWord) : 0 ≤ uint64 w ∧ uint64 w < 2 ^ 64 := by
  have := w.isLt
  unfold uint64
  omega

/-- `sint64` lies in [-2^63, 2^63 - 1] (R8). -/
theorem sint64_bounds (w : DWord) : -2 ^ 63 ≤ sint64 w ∧ sint64 w < 2 ^ 63 := by
  have h := w.isLt
  have hb : w.getLsbD 63 = decide (2 ^ 63 ≤ w.toNat) := by
    rw [← BitVec.msb_eq_getLsbD_last, BitVec.msb_eq_decide]
  unfold sint64 uint64
  rw [hb]
  by_cases hc : 2 ^ 63 ≤ w.toNat
  · simp only [hc, decide_true, if_true]; omega
  · simp only [hc, decide_false, Bool.false_eq_true, if_false]; omega

/-- `sint64` is two's complement (R8). -/
theorem sint64_eq_toInt (w : DWord) : sint64 w = w.toInt := by
  have hb : w.getLsbD 63 = decide (2 ^ 63 ≤ w.toNat) := by
    rw [← BitVec.msb_eq_getLsbD_last, BitVec.msb_eq_decide]
  unfold sint64 uint64
  rw [hb, BitVec.toInt_eq_toNat_cond]
  by_cases hc : 2 ^ 63 ≤ w.toNat
  · rw [if_pos (by simpa using hc), if_neg (by omega)]; norm_num
  · rw [if_neg (by simpa using hc), if_pos (by omega)]; norm_num

/-- Every command that finishes writes a residue: its result is below the latched modulus. -/
theorem ownOutcome_lt {i : Instr} {rd : Reg} {own : Snap → Result} (h : ownOutcome i = some (rd, own)) {snap : Snap}
    (hm : 0 < snap.m.toNat) (ha : snap.a.toNat < snap.m.toNat) {v : Nat} (hv : own snap = .finish v) :
    v < snap.m.toNat := by
  have hs := sint64_bounds snap.arg
  cases i <;> simp only [ownOutcome, Option.some.injEq, Prod.mk.injEq, reduceCtorEq] at h <;> obtain ⟨rfl, rfl⟩ := h
  case loads => simp only [loadsResult, Result.finish.injEq] at hv; subst hv; exact modInt_lt _ hm
  case loadu => simp only [loaduResult, Result.finish.injEq] at hv; subst hv; exact modInt_lt _ hm
  case mul => simp only [mulResult, Result.finish.injEq] at hv; subst hv; exact Nat.mod_lt _ hm
  case pow =>
    simp only [powResult] at hv
    split at hv
    · injection hv with hv; subst hv; exact powmod_lt _ hm (by omega)
    · split at hv
      · injection hv with hv; subst hv; exact powmod_lt _ hm (by omega)
      · cases hv
  case inv =>
    simp only [invResult] at hv
    split at hv
    · injection hv with hv; subst hv; exact invmod_lt _ hm
    · cases hv
  case sqrt =>
    simp only [sqrtResult] at hv
    repeat' split at hv
    all_goals cases hv
    · exact hm
    · exact ha
    · exact sqrtmod_lt _ hm

/-! ### The engine's turn -/

/-- All that a completion step can do (R126, R127, R143). -/
theorem completeOperation_cases {s u : State} {op : Operation} (ht : s.env.turn = .engine) (hp : s.pending = some op)
    (h : completeOperation op s = .next u) :
    (∃ w, op = .config w ∧ u = s.completeConfig w (isPrime w.toNat)) ∨
    (∃ snap i own, op = .command snap ∧ decodeCmd snap.cmd = .legal i ∧ ownOutcome i = some (rdField snap.cmd, own) ∧
      u = s.completeCommand (rdField snap.cmd) (commonChecks snap own)) ∨
    (∃ snap why, op = .command snap ∧ decodeCmd snap.cmd = .illegal snap.cmd why ∧ u = s.raiseError .illegalCommand) := by
  cases op with
  | config w =>
    rw [completeOperation, exec_config_engine w w ht hp] at h
    injection h with h
    exact .inl ⟨w, rfl, h.symm⟩
  | command snap =>
    rw [completeOperation, completeCommandWord] at h
    split at h
    · rename_i i hd
      obtain ⟨own, ho⟩ := ownOutcome_of_decode hd
      rw [exec_command ho, runCommand_engine _ _ _ ht hp] at h
      injection h with h
      exact .inr (.inl ⟨snap, i, own, rfl, hd, ho, h.symm⟩)
    · rename_i w why hd
      injection h with h
      have := decodeCmd_illegal hd
      subst this
      exact .inr (.inr ⟨snap, why, rfl, hd, h.symm⟩)

/-- A completion step is never refused. -/
theorem completeOperation_next {s : State} {op : Operation} (ht : s.env.turn = .engine) (hp : s.pending = some op) :
    ∃ u, completeOperation op s = .next u := by
  cases op with
  | config w => exact ⟨_, exec_config_engine w w ht hp⟩
  | command snap =>
    rw [completeOperation, completeCommandWord]
    split
    · rename_i i hd
      obtain ⟨own, ho⟩ := ownOutcome_of_decode hd
      rw [exec_command ho, runCommand_engine _ _ _ ht hp]
      exact ⟨_, rfl⟩
    · exact ⟨_, rfl⟩

/-! ### The host's turn -/

/-- `s` with other arrivals and host actions to come. -/
abbrev State.toCome (arrivals : List (Nat × Event)) (es : List Event) (s : State) : State :=
  s.withEnv { s.env with arrivals := arrivals, events := es }

/-- The effects a turn of the outside world can have; `l` and `es` are the arrivals and the host's actions left to come. -/
inductive HostEffect (s : State) : State → Prop
  | nothing (l : List (Nat × Event)) (es : List Event) : HostEffect s (s.toCome l es)
  | read (l : List (Nat × Event)) (es : List Event) (r : RegName) (h : s.env.resetLine = false) :
      HostEffect s ((s.toCome l es).hostRead r)
  | cmd (l : List (Nat × Event)) (es : List Event) (w : Word) (h : s.env.resetLine = false) :
      HostEffect s ((s.toCome l es).writeCmd w)
  | modulus (l : List (Nat × Event)) (es : List Event) (w : Word) (h : s.env.resetLine = false) :
      HostEffect s ((s.toCome l es).writeModulus w)
  | ctrl (l : List (Nat × Event)) (es : List Event) (v : Word) (h : s.env.resetLine = false) :
      HostEffect s ((s.toCome l es).writeCtrl v)
  | argLo (l : List (Nat × Event)) (es : List Event) (v : Word) (h : s.env.resetLine = false) :
      HostEffect s ((s.toCome l es).setArgLo v)
  | argHi (l : List (Nat × Event)) (es : List Event) (v : Word) (h : s.env.resetLine = false) :
      HostEffect s ((s.toCome l es).setArgHi v)
  | assertReset (l : List (Nat × Event)) (es : List Event) : HostEffect s (s.toCome l es).assertReset
  | releaseReset (l : List (Nat × Event)) (es : List Event) : HostEffect s (s.toCome l es).releaseReset

/-- An access that reaches a register is made with the reset input released. -/
theorem accessTarget_ok {offset : Int} {bytes : Nat} {s : State} {r : RegName} (h : accessTarget offset bytes s = .ok r) :
    s.env.resetLine = false ∧ bytes = 4 ∧ offset % 4 = 0 ∧ 0 ≤ offset ∧ offset < 0x80 ∧
      RegName.ofOffset offset.toNat = some r := by
  unfold accessTarget at h
  by_cases h1 : s.env.resetLine = true
  · simp [h1] at h
  · simp only [h1] at h
    by_cases h2 : bytes = 4
    · by_cases h3 : offset % 4 = 0
      · by_cases h4 : offset < 0 ∨ 0x80 ≤ offset
        · simp [h2, h3, h4] at h
        · simp only [h2, h3, h4, ne_eq, not_true, if_false, Bool.false_eq_true] at h
          split at h
          · rename_i r' hr
            injection h with h
            subst h
            exact ⟨by simpa using h1, h2, h3, by omega, by omega, hr⟩
          · cases h
      · simp [h2, h3] at h
    · simp [h2] at h

/-- A defined access with the reset input released reaches its register (R62). -/
theorem accessTarget_defined {offset : Int} {s : State} {r : RegName} (hr : s.env.resetLine = false) (h0 : 0 ≤ offset)
    (h : RegName.ofOffset offset.toNat = some r) : accessTarget offset 4 s = .ok r := by
  have hs := (ofOffset_isSome offset.toNat).mp (by simp [h])
  have h3 : offset % 4 = 0 := by omega
  have h4 : ¬ (offset < 0 ∨ 0x80 ≤ offset) := by omega
  simp [accessTarget, hr, h3, h4, h]

/-- What a register write can do, on the host's turn or with nothing in flight (R68). -/
theorem writeReg_cases {r : RegName} {v : Word} {s u : State} (hb : s.env.turn = .host ∨ s.pending = none)
    (h : writeReg r v s = .next u) :
    u = s.writeCmd v ∨ u = s.writeModulus v ∨ u = s.writeCtrl v ∨ u = s.setArgLo v ∨ u = s.setArgHi v ∨ u = s := by
  cases r with
  | ctrl =>
    simp only [writeReg, decodeRegWrite] at h
    by_cases hv : v.getLsbD 0 = true
    · simp only [hv, if_true, exec_srst, Host.Outcome.next.injEq] at h; simp [h]
    · simp only [hv] at h; simp_all
  | modulus =>
    simp only [writeReg, decodeRegWrite, exec_issue _ hb, Host.Outcome.next.injEq] at h; simp [h]
  | cmd =>
    simp only [writeReg, decodeRegWrite] at h
    split at h
    · rename_i i hi
      split at hi
      · rename_i j hd
        injection hi with hi
        subst hi
        exact .inl (by
          obtain ⟨own, ho⟩ := ownOutcome_of_decode hd
          rw [exec_command ho] at h
          have hw : encodeWord j = v := encodeWord_of_decode hd
          rcases hb with hb | hb
          · rw [runCommand_host _ _ _ hb, hw] at h; injection h with h; exact h.symm
          · rw [runCommand_quiescent _ _ _ hb, hw] at h; injection h with h; exact h.symm)
      · cases hi
    · rename_i w why hi
      split at hi
      · cases hi
      · rename_i hd
        injection hi with hw _
        subst hw
        have := decodeCmd_illegal hd
        subst this
        injection h with h
        exact .inl h.symm
    all_goals (rename_i hi; split at hi <;> cases hi)
  | argLo => simp only [writeReg, decodeRegWrite, Host.Outcome.next.injEq] at h; simp [h]
  | argHi => simp only [writeReg, decodeRegWrite, Host.Outcome.next.injEq] at h; simp [h]
  | _ => simp only [writeReg, decodeRegWrite, Host.Outcome.next.injEq] at h; simp [h]

/-- All that a turn of the outside world can do (R132). -/
theorem hostTurn_cases {s u : State} (hb : s.env.turn = .host ∨ s.pending = none) (h : hostTurn s = .next u) :
    HostEffect s u := by
  unfold hostTurn at h
  split at h
  · injection h with h; subst h; exact .nothing _ _
  · rename_i e after hn
    obtain ⟨l, es, rfl⟩ : ∃ l es, after = { s.env with arrivals := l, events := es } := ⟨_, _, Env.next_frame hn⟩
    cases e with
    | access a =>
      simp only [serveEvent, serveAccess] at h
      split at h
      · cases h
      · rename_i r ha
        have hl : s.env.resetLine = false := (accessTarget_ok ha).1
        split at h
        · injection h with h; subst h; exact .read l es r hl
        · obtain rfl | rfl | rfl | rfl | rfl | rfl := writeReg_cases (s := s.toCome l es) hb h
          · exact .cmd l es _ hl
          · exact .modulus l es _ hl
          · exact .ctrl l es _ hl
          · exact .argLo l es _ hl
          · exact .argHi l es _ hl
          · exact .nothing l es
    | poll =>
      simp only [serveEvent, servePoll] at h
      split at h
      · cases h
      · rename_i ha
        injection h with h
        subst h
        exact .read l _ .status (accessTarget_ok ha).1
    | stopIf offset mask value =>
      simp only [serveEvent, serveStopIf] at h
      split at h
      · cases h
      · rename_i r ha
        injection h with h
        subst h
        exact .read l _ r (accessTarget_ok ha).1
    | assertReset => injection h with h; subst h; exact .assertReset l es
    | releaseReset => injection h with h; subst h; exact .releaseReset l es

/-! ### The step -/

theorem mapNext_next {f : State → State} {o : Host.Outcome State Fault Refusal} {t : State} (h : mapNext f o = .next t) :
    ∃ u, o = .next u ∧ t = f u := by
  cases o with
  | next u => simp only [mapNext, Host.Outcome.next.injEq] at h; exact ⟨u, rfl, h.symm⟩
  | fault r => cases r
  | refused r => simp [mapNext] at h

/-- On the engine's turn with an operation in flight, a step is its completion (R129). -/
theorem step_engine {s : State} {op : Operation} (ht : s.env.turn = .engine) (hp : s.pending = some op) :
    step s = mapNext State.schedule (completeOperation op s) := by
  simp [step, ht, hp]

/-- On the outside world's turn, a step serves its next event. -/
theorem step_event {s : State} {e : Event} {after : Env} (ht : s.env.turn = .host) (hn : s.env.next = some (e, after)) :
    step s = mapNext State.schedule (serveEvent e (s.withEnv after)) := by
  simp [step, hostTurn, ht, hn]

/-- Taking an event leaves the reset input as it is. -/
theorem Env.next_resetLine {e after : Env} {a : Event} (h : e.next = some (a, after)) :
    after.resetLine = e.resetLine := by
  rw [Env.next_frame h]

/-- Taking an event leaves what was read as it is. -/
theorem Env.next_reads {e after : Env} {a : Event} (h : e.next = some (a, after)) : after.reads = e.reads := by
  rw [Env.next_frame h]

/-- All that a step can do (R132): the completion of the operation in flight, or the host's turn. -/
theorem step_cases {s t : State} (h : step s = .next t) :
    (∃ op u, s.env.turn = .engine ∧ s.pending = some op ∧ completeOperation op s = .next u ∧ t = u.schedule) ∨
    (∃ u, (s.env.turn = .host ∨ s.pending = none) ∧ HostEffect s u ∧ t = u.schedule) := by
  unfold step at h
  split at h
  · rename_i op ht hp
    obtain ⟨u, hu, rfl⟩ := mapNext_next h
    exact .inl ⟨op, u, ht, hp, hu, rfl⟩
  · rename_i hne
    obtain ⟨u, hu, rfl⟩ := mapNext_next h
    have hb : s.env.turn = .host ∨ s.pending = none := by
      rcases ht : s.env.turn with _ | _
      · exact .inl rfl
      · rcases hp : s.pending with _ | op
        · exact .inr rfl
        · exact absurd hp (by simpa using hne op ht)
    exact .inr ⟨u, hb, hostTurn_cases hb hu, rfl⟩

end Sys2Proof.Machine
end

