-- ==== Sys2Proof/Laws/PerInstr.lean ====
section
/-! SUPPORT. Per operation: decoding the host write that encodes it gives it back. -/

namespace Sys2Proof.Laws.RoundTrip

/-- Decoding the encoding of a well-formed operation gives the operation (R95, R98, R99). -/
def Statement (i : Instr) : Prop := i.wellFormed = true → decodeWrite (encode i) = .operation i

theorem loads (rd : Reg) : Statement (.loads rd) := by
  intro _; revert rd; decide +kernel

theorem loadu (rd : Reg) : Statement (.loadu rd) := by
  intro _; revert rd; decide +kernel

theorem mul (rd rs1 rs2 : Reg) : Statement (.mul rd rs1 rs2) := by
  intro _; revert rd rs1 rs2; decide +kernel

theorem pow (rd rs1 : Reg) : Statement (.pow rd rs1) := by
  intro _; revert rd rs1; decide +kernel

theorem inv (rd rs1 : Reg) : Statement (.inv rd rs1) := by
  intro _; revert rd rs1; decide +kernel

theorem sqrt (rd rs1 : Reg) : Statement (.sqrt rd rs1) := by
  intro _; revert rd rs1; decide +kernel

theorem config (w : Word) : Statement (.config w) := by
  intro _
  simp [encode, encodePort, encodeWord, decodeWrite_offset, decodeRegWrite]

theorem srst (v : Word) : Statement (.srst v) := by
  intro h
  simp only [Instr.wellFormed] at h
  simp [encode, encodePort, encodeWord, decodeWrite_offset, decodeRegWrite, h]

end Sys2Proof.Laws.RoundTrip
end

