-- ==== Sys2Proof/Tests/Slice0.lean ====
section
/-! SUPPORT. Tests of one step each against the vectors of spec/95_test_vectors.md, the WellFormed smoke, decode tests on
words written out from spec/30_encoding.md, and for each statement with hypotheses a named state that meets them. -/

namespace Sys2Proof.Tests

open Sys2Proof Sys2Proof.Machine

/-! ### WellFormed: each check refuses a term that breaks it -/

theorem test_srst_needs_bit_zero : (Instr.srst 0xFFFFFFFE).wellFormed = false ∧ (Instr.srst 1).wellFormed = true := by decide

theorem test_li_range : (Pseudo.li 0 (2 ^ 63)).wellFormed = false ∧ (Pseudo.li 0 (-2 ^ 63 - 1)).wellFormed = false ∧
    (Pseudo.li 0 (2 ^ 63 - 1)).wellFormed = true ∧ (Pseudo.li 0 (-2 ^ 63)).wellFormed = true := by decide

theorem test_liu_range : (Pseudo.liu 0 (-1)).wellFormed = false ∧ (Pseudo.liu 0 (2 ^ 64)).wellFormed = false ∧
    (Pseudo.liu 0 (2 ^ 64 - 1)).wellFormed = true := by decide

theorem test_powi_range : (Pseudo.powi 0 1 (2 ^ 63)).wellFormed = false ∧ (Pseudo.powi 0 1 (-1)).wellFormed = true := by
  decide

theorem test_div_scratch : (Pseudo.div 0 1 2 1).wellFormed = false ∧ (Pseudo.div 0 1 2 2).wellFormed = true := by decide

/-! ### Decoding: words written out bit by bit from R99's patterns -/

theorem test_decode_loads : decodeTableWord 32 0b00000000000000000000011000000001 = some (.loads 6) := by decide

theorem test_decode_loadu : decodeTableWord 32 0b00000000000000000000000100000010 = some (.loadu 1) := by decide

theorem test_decode_mul : decodeTableWord 32 0b00000000000001000010000100010000 = some (.mul 1 2 4) := by decide

theorem test_decode_pow : decodeTableWord 32 0b00000000000000000101001100100000 = some (.pow 3 5) := by decide

theorem test_decode_inv : decodeTableWord 32 0b00000000000000000011010000110000 = some (.inv 4 3) := by decide

theorem test_decode_sqrt : decodeTableWord 32 0b00000000000000000111011001000000 = some (.sqrt 6 7) := by decide

/-- CONFIG and SRST are told apart by the register they reach (R98); on a bare word the most specific row is read. -/
theorem test_decode_config : decodeWrite ⟨0x0C, 0x00000001⟩ = .operation (.config 1) ∧
    decodeTableWord 32 0x3B9ACA06 = some (.config 0x3B9ACA06) := by decide

theorem test_decode_srst : decodeWrite ⟨0x04, 0x00000001⟩ = .operation (.srst 1) ∧
    decodeTableWord 32 0xFFFFFFFF = some (.srst 0xFFFFFFFF) := by decide

/-- The lanes of `MUL r7, r7, r7` (0x00077710), lane 0 first (R65). -/
theorem test_decode_bytes : decodeBytes 0x18 [0x10, 0x77, 0x07, 0x00] = .operation (.mul 7 7 7) := by decide

theorem test_decode_short_access : decodeBytes 0x18 [0x10, 0x77] = .undefinedAccess := by decide

/-- R265: 0x00001030 decodes; 0x00010030 does not, by its nonzero fixed bit. -/
theorem test_decode_inv_rs2 : decodeCmd 0x00001030 = .legal (.inv 0 1) ∧
    decodeCmd 0x00010030 = .illegal 0x00010030 .nonzeroFixedBit := by decide

/-- R100: the text of P2's command. -/
theorem test_assemble : assemble "MUL r3, R0,r2".toList = some (.mul 3 0 2) ∧
    (assemble "MUL r3, r0, r2".toList).map encodeWord = some 0x00020310 := by decide

theorem test_assemble_refuses : assemble "MUL r3, r8, r2".toList = none ∧ assemble "ADD r0, r1, r2".toList = none := by
  decide

/-! ### Small states -/

/-- A configured, quiescent block: modulus and primality flag, R0, R1 and ARG; the next operations have delay 0. -/
def configured (m : Word) (prime : Bool) (x0 x1 : Word) (arg : DWord) : State :=
  { State.reset with
    x := ((Vector.replicate 8 0).set 0 x0).set 1 x1, modulus := m, cfgValid := true, modPrime := prime, done := true,
    arg := arg, env := { Env.reset with latencies := [0, 0, 0] } }

/-- A block whose configuration failed (STATUS 0x126). -/
def faulted : State :=
  { State.reset with cfgFault := true, done := true, errcode := 1, env := { Env.reset with latencies := [0, 0, 0] } }

/-- `s` with the operation in flight and the engine about to complete it. -/
def inFlight (op : Operation) (s : State) : State :=
  { s with busy := true, done := false, errcode := 0, pending := some op, env := { s.env with turn := .engine } }

/-- `s` with the command word `w` in flight. -/
def running (w : Word) (s : State) : State := { inFlight (.command (s.snapshot w)) s with lastcmd := w }

/-- `s` with its outside world about to do `es`. -/
def facing (es : List Event) (s : State) : State := { s with env := { s.env with events := es } }

/-- `s` with `l` to come of its own accord. -/
def arriving (l : List (Nat × Event)) (s : State) : State := { s with env := { s.env with arrivals := l } }

/-- A register and STATUS after one step. -/
def seen (rd : Reg) : Host.Outcome State Fault Refusal → Option (Word × Word)
  | .next t => some (t.reg rd, t.status)
  | _ => none

/-- A register of the window after one step. -/
def seenAt (r : RegName) : Host.Outcome State Fault Refusal → Option Word
  | .next t => some (t.readReg r)
  | _ => none

/-- The refusal of one step. -/
def refusal : Host.Outcome State Fault Refusal → Option Refusal
  | .refused r => some r
  | _ => none

/-! ### One completion step each (spec/95_test_vectors.md 2.1 to 2.8) -/

theorem test_loads_minus_one :
    seen 0 (step (running 0x00000001 (configured 7 true 0 0 0xFFFFFFFFFFFFFFFF))) = some (6, 0x1A) := by decide

theorem test_loads_minus_m :
    seen 0 (step (running 0x00000001 (configured 13 true 5 0 0xFFFFFFFFFFFFFFF3))) = some (0, 0x1A) := by decide

theorem test_loadu_all_ones :
    seen 1 (step (running 0x00000102 (configured 7 true 0 0 0xFFFFFFFFFFFFFFFF))) = some (1, 0x1A) := by decide

theorem test_loadu_not_signed :
    seen 1 (step (running 0x00000102 (configured 13 true 0 0 0xFFFFFFFFFFFFFFF3))) = some (3, 0x1A) := by decide

theorem test_mul_zero_divisors : seen 2 (step (running 0x00010210 (configured 15 false 3 5 0))) = some (0, 0x0A) := by decide

theorem test_mul_widest : seen 0 (step (running 0x00010010 (configured 2147483647 true 2147483646 2147483646 0))) =
    some (1, 0x1A) := by decide

theorem test_pow_most_negative :
    seen 1 (step (running 0x00000120 (configured 13 true 2 0 0x8000000000000000))) = some (3, 0x1A) := by
  decide +kernel

theorem test_pow_uninvertible :
    seen 1 (step (running 0x00000120 (configured 15 false 3 9 0xFFFFFFFFFFFFFFFF))) = some (9, 0x20E) := by decide

theorem test_inv_composite : seen 1 (step (running 0x00000130 (configured 15 false 2 0 0))) = some (8, 0x0A) := by decide

theorem test_inv_zero_under_prime : seen 1 (step (running 0x00000130 (configured 13 true 0 4 0))) = some (4, 0x21E) := by
  decide

theorem test_sqrt_smaller_root : seen 1 (step (running 0x00000140 (configured 41 true 5 0 0))) = some (13, 0x1A) := by decide

theorem test_sqrt_composite : seen 1 (step (running 0x00000140 (configured 15 false 4 0 0))) = some (0, 0x40E) := by decide

theorem test_config_composite : seenAt .modulus (step (inFlight (.config 15) State.reset)) = some 15 ∧
    seenAt .status (step (inFlight (.config 15) State.reset)) = some 0x0A := by decide

theorem test_config_too_large : seenAt .modulus (step (inFlight (.config 0x80000000) State.reset)) = some 0 ∧
    seenAt .status (step (inFlight (.config 0x80000000) State.reset)) = some 0x126 := by decide

theorem test_srst_ignores_other_bits : seenAt .status (step (facing [.W 0x04 0xFFFFFFFF] faulted)) = some 0 := by decide

theorem test_srst_bit_clear : seenAt .status (step (facing [.W 0x04 0xFFFFFFFE] faulted)) = some 0x126 := by decide

/-! ### Acceptance, drops, errors and refusals -/

theorem test_illegal_word : seenAt .status (step (running 0x00000000 State.reset)) = some 0x706 := by decide

theorem test_not_configured : seenAt .status (step (running 0x00000001 State.reset)) = some 0x606 := by decide

theorem test_after_fault : seenAt .status (step (running 0x00000001 faulted)) = some 0x126 := by decide

theorem test_second_modulus_dropped :
    seenAt .status (step (facing [.W 0x0C 0x00000007] (configured 13 true 0 0 0))) = some 0x5A := by decide

theorem test_residue_write_ignored :
    seen 0 (step (facing [.W 0x20 7] (configured 13 true 5 0 0))) = some (5, 0x1A) := by decide

theorem test_host_read :
    (match step (facing [.R 0x24] (configured 13 true 5 6 0)) with | .next t => t.env.reads | _ => []) = [6] := by decide

theorem test_refusals :
    refusal (step (facing [.access ⟨.read, 0x20, 2, 0⟩] State.reset)) = some .undefinedWidth ∧
    refusal (step (facing [.access ⟨.write, 0x0E, 4, 0⟩] State.reset)) = some .misaligned ∧
    refusal (step (facing [.access ⟨.read, 0x80, 4, 0⟩] State.reset)) = some .outsideWindow ∧
    refusal (step (facing [.access ⟨.read, -4, 4, 0⟩] State.reset)) = some .outsideWindow := by decide

/-- R302: a soft reset that comes during the poll is served before the poll has ended, which goes on. -/
theorem test_reset_during_poll :
    (match step (arriving [(0, .W 0x04 1)] (facing [.poll] { running 0x00000120 (configured 13 true 2 7 3) with
        env := { Env.reset with delay := 5 } })) with
      | .next t => (t.status, t.pending, t.env.events)
      | _ => (1, none, [])) = (0, none, [.poll]) := by decide

/-- An arrival waits its turns: the host's read comes first. -/
theorem test_arrival_waits :
    (match step (arriving [(1, .W 0x04 1)] (facing [.R 0x24] (configured 13 true 5 6 0))) with
      | .next t => (t.env.reads, t.env.arrivals, t.modulus)
      | _ => ([], [], 0)) = ([6], [(0, .W 0x04 1)], 13) := by decide

/-- The table word `LOADS r5`, placed and stepped from reset, is accepted. -/
theorem test_fetch_word :
    seenAt .cmd (step (State.reset.withFetchWord 32 0x00000501)) = some 0x00000501 ∧
    seenAt .status (step (State.reset.withFetchWord 32 0x00000501)) = some 0x1 := by decide

/-! ### States that meet the statements' hypotheses

`w13` is configured with 13, a prime; `busy13` has `POW r1, r0` in flight on the engine's turn; `waiting13` is `busy13` with
the host to move; `cfgBusy` has a configuration in flight. -/

def w13 : State := configured 13 true 2 7 3

def busy13 : State := running 0x00000120 w13

def waiting13 : State := { busy13 with env := { busy13.env with turn := .host, events := [.poll], delay := 1 } }

def cfgBusy (w : Word) : State := inFlight (.config w) State.reset

/-- A snapshot under the modulus 13. -/
def snap13 (cmd a b : Word) (arg : DWord) : Snap := ⟨cmd, a, b, arg, 13, true, false⟩

/-- A snapshot under the modulus 15. -/
def snap15 (cmd a b : Word) (arg : DWord) : Snap := ⟨cmd, a, b, arg, 15, false, false⟩

/-- A state about to complete a command with a given snapshot. -/
def completes (snap : Snap) : State := inFlight (.command snap) State.reset

theorem witness_inv_reset : State.reset.Inv where
  busy_pending := by decide
  done_not_busy := by decide
  fresh := by decide
  busy_no_error := by decide
  errcode_valid := by decide
  not_valid_and_fault := by decide
  prime_valid := by decide
  modulus_unconfigured := by decide
  modulus_legal := by decide
  prime_exact := by decide
  residue_unconfigured := by decide
  residue_reduced := by decide
  pending_agrees := True.intro
  held_in_reset := by decide

theorem witness_inv_w13 : w13.Inv where
  busy_pending := by decide
  done_not_busy := by decide
  fresh := by decide
  busy_no_error := by decide
  errcode_valid := by decide
  not_valid_and_fault := by decide
  prime_valid := by decide
  modulus_unconfigured := by decide
  modulus_legal := by decide
  prime_exact := by decide
  residue_unconfigured := by decide
  residue_reduced := by decide
  pending_agrees := True.intro
  held_in_reset := by decide

theorem witness_inv_busy13 : busy13.Inv where
  busy_pending := by decide
  done_not_busy := by decide
  fresh := by decide
  busy_no_error := by decide
  errcode_valid := by decide
  not_valid_and_fault := by decide
  prime_valid := by decide
  modulus_unconfigured := by decide
  modulus_legal := by decide
  prime_exact := by decide
  residue_unconfigured := by decide
  residue_reduced := by decide
  pending_agrees := ⟨rfl, rfl, rfl, rfl, rfl, rfl⟩
  held_in_reset := by decide

theorem witness_inv_waiting13 : waiting13.Inv where
  busy_pending := by decide
  done_not_busy := by decide
  fresh := by decide
  busy_no_error := by decide
  errcode_valid := by decide
  not_valid_and_fault := by decide
  prime_valid := by decide
  modulus_unconfigured := by decide
  modulus_legal := by decide
  prime_exact := by decide
  residue_unconfigured := by decide
  residue_reduced := by decide
  pending_agrees := ⟨rfl, rfl, rfl, rfl, rfl, rfl⟩
  held_in_reset := by decide

theorem witness_inv_faulted : faulted.Inv where
  busy_pending := by decide
  done_not_busy := by decide
  fresh := by decide
  busy_no_error := by decide
  errcode_valid := by decide
  not_valid_and_fault := by decide
  prime_valid := by decide
  modulus_unconfigured := by decide
  modulus_legal := by decide
  prime_exact := by decide
  residue_unconfigured := by decide
  residue_reduced := by decide
  pending_agrees := True.intro
  held_in_reset := by decide

theorem prime13 : Nat.Prime 13 := by decide

theorem composite15 : ¬ Nat.Prime 15 := by decide

/-- Snapshots under 13 with residue operands are those of a configured engine. -/
theorem configured13 (cmd : Word) {a b : Word} (arg : DWord) (ha : a.toNat < 13) (hb : b.toNat < 13) :
    (snap13 cmd a b arg).configured :=
  ⟨show 2 ≤ (13 : Word).toNat by decide, show (13 : Word).toNat ≤ 2 ^ 31 - 1 by decide, ha, hb, fun _ => prime13, fun _ => rfl⟩

theorem configured15 (cmd : Word) {a b : Word} (arg : DWord) (ha : a.toNat < 15) (hb : b.toNat < 15) :
    (snap15 cmd a b arg).configured :=
  ⟨show 2 ≤ (15 : Word).toNat by decide, show (15 : Word).toNat ≤ 2 ^ 31 - 1 by decide, ha, hb, (nomatch ·), fun h => absurd h composite15⟩

/-- The smallest configured engine: m = 2. -/
def snap2 (a : Word) : Snap := ⟨0x00000140, a, 0, 0, 2, true, false⟩

theorem configured2 {a : Word} (ha : a.toNat < 2) : (snap2 a).configured :=
  ⟨show 2 ≤ (2 : Word).toNat by decide, show (2 : Word).toNat ≤ 2 ^ 31 - 1 by decide, ha,
    show (0 : Word).toNat < (2 : Word).toNat by decide, fun _ => Nat.prime_two, fun _ => rfl⟩

theorem completes_completing (snap : Snap) : (completes snap).completing snap := ⟨rfl, rfl⟩

/-! ### One witness per statement with hypotheses -/

theorem witness_DecodeAndEncodeAgree :
    (Instr.mul 7 7 7).wellFormed = true ∧ (Instr.srst 1).wellFormed = true ∧ (Instr.srst 0xFFFFFFFF).wellFormed = true ∧
    decodeRegWrite .cmd 0x00077710 = .operation (.mul 7 7 7) ∧ decodeRegWrite .ctrl 1 = .operation (.srst 1) ∧
    decodeRegWrite .modulus 0 = .operation (.config 0) := by decide

theorem witness_UnassignedWordsAreIllegal :
    (¬ ∃ opc ∈ [0x01, 0x02, 0x10, 0x20, 0x30, 0x40], (0x000000FF : Word).toNat % 256 = opc) ∧
    ((0x00000801 : Word).toNat % 256 = 0x01 ∧ (0x00000801 : Word) &&& 0xFFFFF800 ≠ 0) ∧
    ((0x80000002 : Word).toNat % 256 = 0x02 ∧ (0x80000002 : Word) &&& 0xFFFFF800 ≠ 0) ∧
    ((0x00010030 : Word).toNat % 256 = 0x30 ∧ (0x00010030 : Word) &&& 0xFFFF8800 ≠ 0) ∧
    ((0x00080010 : Word).toNat % 256 = 0x10 ∧ (0x00080010 : Word) &&& 0xFFF88800 ≠ 0) := by decide

theorem witness_AssemblyTextGivesCommand : asmText (.mul 1 2 3) = some "MUL r1, r2, r3".toList := by decide

theorem witness_ByteLanesCarryTheWord : (3 < 4 ∧ 7 < 8) ∧ ([1, 2, 3] : List Byte).length ≠ 4 := by decide

theorem witness_WindowReadsByOffset : (0x40 ≤ 0x40 ∧ 0x40 < 0x80 ∧ 0x40 % 4 = 0) ∧ (0x7C < 0x80 ∧ 0x7C % 4 = 0) := by decide

theorem witness_ReadsHaveNoSideEffect : RegName.ofOffset 0x7C = some .reserved ∧
    (facing [.R 0x7C, .poll] w13).env.resetLine = false ∧ (facing [.R 0x7C, .poll] w13).about (.R 0x7C) { w13.env with events := [.poll] } :=
  ⟨by decide, rfl, rfl, rfl⟩

theorem witness_IgnoredWritesChangeNothing :
    RegName.access .status = .readOnly ∧ RegName.access (.residue 7) = .readOnly ∧ (0xFFFFFFFE : Word).getLsbD 0 = false := by
  decide

theorem witness_NoOperationWritesArg : ∃ t u, exec (.pow 1 0) w13 = .next t ∧ exec (.srst 1) w13 = .next u := ⟨_, _, rfl, rfl⟩

theorem witness_CommandWriteIsAccepted : State.reset.env.turn = .host ∧ State.reset.busy = false := by decide

theorem witness_ModulusWriteIsAcceptedOnce :
    (State.reset.Inv ∧ State.reset.env.turn = .host ∧ State.reset.busy = false ∧ State.reset.cfgValid = false ∧
      State.reset.cfgFault = false) ∧
    (w13.Inv ∧ w13.env.turn = .host ∧ ¬ (w13.busy = false ∧ w13.cfgValid = false ∧ w13.cfgFault = false)) :=
  ⟨⟨witness_inv_reset, by decide⟩, witness_inv_w13, by decide⟩

theorem witness_DroppedWriteChangesOnlyDropped :
    (waiting13.env.turn = .host ∧ waiting13.busy = true) ∧ (faulted.env.turn = .host ∧ faulted.cfgFault = true) ∧
    (w13.env.turn = .host ∧ w13.cfgValid = true) := by decide

theorem witness_OperationsIssueAsRegisterWrites : (Instr.srst 1).wellFormed = true ∧ w13.env.turn = .host := by decide

theorem witness_LoadsNormalisesSignedArgument :
    (completes (snap13 1 0 0 0xFFFFFFFFFFFFFFF3)).completing (snap13 1 0 0 0xFFFFFFFFFFFFFFF3) ∧
    (snap13 1 0 0 0xFFFFFFFFFFFFFFF3).configured :=
  ⟨completes_completing _, configured13 _ _ (by decide) (by decide)⟩

theorem witness_LoaduNormalisesUnsignedArgument :
    (completes (snap13 2 0 0 0xFFFFFFFFFFFFFFFF)).completing (snap13 2 0 0 0xFFFFFFFFFFFFFFFF) ∧
    (snap13 2 0 0 0xFFFFFFFFFFFFFFFF).configured :=
  ⟨completes_completing _, configured13 _ _ (by decide) (by decide)⟩

theorem witness_MulWritesReducedExactProduct :
    (completes (snap13 0x10 12 12 0)).completing (snap13 0x10 12 12 0) ∧ (snap13 0x10 12 12 0).configured :=
  ⟨completes_completing _, configured13 _ _ (by decide) (by decide)⟩

/-- The three cases of POW: e = 0 on 0, the most negative e on a unit, e = -1 on a non-unit. -/
theorem witness_PowRaisesToSignedExponent :
    ((snap13 0x20 0 0 0).configured ∧ 0 ≤ (snap13 0x20 0 0 0).arg.toInt) ∧
    ((snap13 0x20 2 0 0x8000000000000000).configured ∧ (snap13 0x20 2 0 0x8000000000000000).arg.toInt < 0 ∧
      Nat.gcd (snap13 0x20 2 0 0x8000000000000000).a.toNat (snap13 0x20 2 0 0x8000000000000000).m.toNat = 1) ∧
    ((snap15 0x20 3 0 0xFFFFFFFFFFFFFFFF).configured ∧ (snap15 0x20 3 0 0xFFFFFFFFFFFFFFFF).arg.toInt < 0 ∧
      Nat.gcd (snap15 0x20 3 0 0xFFFFFFFFFFFFFFFF).a.toNat (snap15 0x20 3 0 0xFFFFFFFFFFFFFFFF).m.toNat ≠ 1) :=
  ⟨⟨configured13 _ _ (by decide) (by decide), by decide⟩, ⟨configured13 _ _ (by decide) (by decide), by decide⟩,
    configured15 _ _ (by decide) (by decide), by decide⟩

theorem witness_InvWritesInverseOrFails :
    ((snap15 0x30 14 0 0).configured ∧ Nat.gcd (snap15 0x30 14 0 0).a.toNat (snap15 0x30 14 0 0).m.toNat = 1) ∧
    ((snap15 0x30 5 0 0).configured ∧ Nat.gcd (snap15 0x30 5 0 0).a.toNat (snap15 0x30 5 0 0).m.toNat ≠ 1) ∧
    ((snap13 0x30 0 0 0).configured ∧ (snap13 0x30 0 0 0).a = 0) :=
  ⟨⟨configured15 _ _ (by decide) (by decide), by decide⟩, ⟨configured15 _ _ (by decide) (by decide), by decide⟩,
    configured13 _ _ (by decide) (by decide), by decide⟩

/-- The five cases of SQRT: 0 under 15, 1 under 2, 4 under 15, 2 under 13 (no square), 12 under 13 (a square). -/
theorem witness_SqrtWritesSmallerRootOrFails :
    ((snap15 0x40 0 0 0).configured ∧ (snap15 0x40 0 0 0).a.toNat = 0) ∧
    ((snap2 1).configured ∧ (snap2 1).a.toNat ≠ 0 ∧ (snap2 1).m.toNat = 2) ∧
    ((snap15 0x40 4 0 0).configured ∧ (snap15 0x40 4 0 0).a.toNat ≠ 0 ∧ ¬ Nat.Prime (snap15 0x40 4 0 0).m.toNat) ∧
    ((snap13 0x40 2 0 0).configured ∧ Nat.Prime (snap13 0x40 2 0 0).m.toNat ∧ (snap13 0x40 2 0 0).m.toNat ≠ 2 ∧
      ¬ ∃ r, r < (snap13 0x40 2 0 0).m.toNat ∧ r * r % (snap13 0x40 2 0 0).m.toNat = (snap13 0x40 2 0 0).a.toNat) ∧
    ((snap13 0x40 12 0 0).configured ∧ Nat.Prime (snap13 0x40 12 0 0).m.toNat ∧ (snap13 0x40 12 0 0).m.toNat ≠ 2 ∧
      ∃ r, r < (snap13 0x40 12 0 0).m.toNat ∧ r * r % (snap13 0x40 12 0 0).m.toNat = (snap13 0x40 12 0 0).a.toNat) :=
  ⟨⟨configured15 _ _ (by decide) (by decide), by decide⟩, ⟨configured2 (by decide), by decide⟩,
    ⟨configured15 _ _ (by decide) (by decide), by decide, composite15⟩,
    ⟨configured13 _ _ (by decide) (by decide), prime13, by decide, by decide⟩,
    configured13 _ _ (by decide) (by decide), prime13, by decide, 5, by decide⟩

theorem witness_ConfigCompletionSetsModulusOrFault (w : Word) :
    ((cfgBusy w).env.turn = .engine ∧ (cfgBusy w).pending = some (.config w)) ∧
    (2 ≤ (2 : Word).toNat ∧ (0x7FFFFFFF : Word).toNat ≤ 2 ^ 31 - 1) ∧
    (¬ 2 ≤ (1 : Word).toNat) ∧ ¬ (0x80000000 : Word).toNat ≤ 2 ^ 31 - 1 := ⟨⟨rfl, rfl⟩, by decide⟩

theorem witness_SoftResetRestoresResetState : (1 : Word).getLsbD 0 = true ∧ (0xFFFFFFFE : Word).getLsbD 0 = false := by decide

theorem witness_HardwareResetIsSoftReset :
    (facing [.assertReset] waiting13).about .assertReset { waiting13.env with events := [] } ∧
    State.reset.assertReset.env.resetLine = true ∧
    (facing [.R 0x08] State.reset.assertReset).about (.access ⟨.read, 0x08, 4, 0⟩) State.reset.assertReset.env ∧
    (facing [.poll] State.reset.assertReset).about .poll State.reset.assertReset.env ∧
    (facing [.stopIf 0x08 0x4 0x4] State.reset.assertReset).about (.stopIf 0x08 0x4 0x4) State.reset.assertReset.env :=
  ⟨⟨rfl, rfl⟩, rfl, ⟨rfl, rfl⟩, ⟨rfl, rfl⟩, rfl, rfl⟩

theorem witness_UnconfiguredCommandFails :
    (completes ⟨0, 0, 0, 0, 0, false, false⟩).completing ⟨0, 0, 0, 0, 0, false, false⟩ ∧
    decodeCmd 0x00000000 = .illegal 0x00000000 .unassignedOpcode ∧
    (completes ⟨1, 0, 0, 0, 0, false, true⟩).completing ⟨1, 0, 0, 0, 0, false, true⟩ ∧
    decodeCmd 0x00000001 = .legal (.loads 0) := ⟨⟨rfl, rfl⟩, by decide, ⟨rfl, rfl⟩, by decide⟩

theorem witness_IllegalWordCompletesWithCode7 :
    (completes (snap13 3 0 0 0)).completing (snap13 3 0 0 0) ∧ ∀ i, decodeCmd (snap13 3 0 0 0).cmd ≠ .legal i :=
  ⟨completes_completing _, fun i h => by
    rw [show decodeCmd (snap13 3 0 0 0).cmd = .illegal 3 .unassignedOpcode by decide] at h; cases h⟩

theorem witness_CommandCompletionWritesOneRegisterOrNone :
    (completes (snap13 0x10 12 12 0)).completing (snap13 0x10 12 12 0) ∧
    ((snap13 0x10 12 12 0).m ≠ 0 → (snap13 0x10 12 12 0).configured) :=
  ⟨completes_completing _, fun _ => configured13 _ _ (by decide) (by decide)⟩

theorem witness_OutcomeDependsOnSnapshotOnly :
    (completes (snap13 0x10 2 7 0)).completing (snap13 0x10 2 7 0) ∧
    (inFlight (.command (snap13 0x10 2 7 0)) w13).completing (snap13 0x10 2 7 0) := ⟨⟨rfl, rfl⟩, rfl, rfl⟩

/-- In flight and staying so; completing; reset away. -/
theorem witness_OperationEndsByCompletionOrReset :
    (waiting13.Inv ∧ waiting13.pending.isSome = true ∧ ∃ t, step waiting13 = .next t) ∧
    (busy13.Inv ∧ busy13.pending.isSome = true ∧ ∃ t, step busy13 = .next t) :=
  ⟨⟨witness_inv_waiting13, rfl, _, rfl⟩, witness_inv_busy13, rfl, _, rfl⟩

theorem witness_OperationInFlightCompletes :
    (waiting13.Inv ∧ waiting13.pending ≠ none) ∧ (busy13.Inv ∧ busy13.pending ≠ none) :=
  ⟨⟨witness_inv_waiting13, by decide⟩, witness_inv_busy13, by decide⟩

theorem witness_MulReadsSourcesBeforeItWrites :
    w13.Inv ∧ w13.cfgValid = true ∧ w13.busy = false ∧ w13.env.turn = .host := ⟨witness_inv_w13, by decide⟩

theorem witness_StepRunsDecodedOperation :
    ((facing [.W 0x18 0x00000120] w13).about (.W 0x18 0x00000120) w13.env ∧ w13.env.resetLine = false ∧
      decodeWrite ⟨0x18, 0x00000120⟩ = .operation (.pow 1 0)) ∧
    (busy13.completing (w13.snapshot 0x00000120) ∧ decodeCmd (w13.snapshot 0x00000120).cmd = .legal (.pow 1 0)) ∧
    ((cfgBusy 13).env.turn = .engine ∧ (cfgBusy 13).pending = some (.config 13)) ∧
    decodeTableWord 32 0x00000120 = some (.pow 1 0) :=
  ⟨⟨⟨rfl, rfl⟩, by decide⟩, ⟨⟨rfl, rfl⟩, by decide⟩, ⟨rfl, rfl⟩, by decide⟩

/-- The accesses at the ends of the four cases. -/
theorem witness_OnlyUndefinedAccessesAreRefused :
    (facing [.access ⟨.read, 0x7D, 2, 0⟩] w13).about (.access ⟨.read, 0x7D, 2, 0⟩) w13.env ∧
    (facing [.access ⟨.read, 0x7D, 4, 0⟩] w13).about (.access ⟨.read, 0x7D, 4, 0⟩) w13.env ∧
    ((facing [.access ⟨.read, 0x80, 4, 0⟩] w13).about (.access ⟨.read, 0x80, 4, 0⟩) w13.env ∧ (0x7C : Int) < 0x80) ∧
    ((facing [.access ⟨.read, -4, 4, 0⟩] w13).about (.access ⟨.read, -4, 4, 0⟩) w13.env ∧ (-4 : Int) % 4 = 0) ∧
    (facing [.access ⟨.read, 0x7C, 4, 0⟩] w13).about (.access ⟨.read, 0x7C, 4, 0⟩) w13.env ∧ w13.env.resetLine = false :=
  ⟨⟨rfl, rfl⟩, ⟨rfl, rfl⟩, ⟨⟨rfl, rfl⟩, by decide⟩, ⟨⟨rfl, rfl⟩, by decide⟩, ⟨rfl, rfl⟩, rfl⟩

theorem witness_PollWaitsForBusyClear :
    (waiting13.about .poll { waiting13.env with events := [] } ∧ waiting13.env.resetLine = false ∧
      waiting13.status.getLsbD 0 = true) ∧
    ((facing [.poll] w13).about .poll w13.env ∧ w13.env.resetLine = false ∧
      (facing [.poll] w13).status.getLsbD 0 = false) := ⟨⟨⟨rfl, rfl⟩, by decide⟩, ⟨rfl, rfl⟩, by decide⟩

theorem witness_inv_facing (es : List Event) : (facing es w13).Inv :=
  { witness_inv_w13 with
    fresh := fun _ h => absurd (show true = false from h) (by decide)
    held_in_reset := fun h => absurd (show false = true from h) (by decide) }

theorem witness_LoadImmediateExpansionLoadsResidue :
    (facing (expand (.li 3 (-2 ^ 63))) w13).Inv ∧ w13.cfgValid = true ∧ w13.pending = none ∧ w13.env.turn = .host ∧
    w13.env.resetLine = false ∧ (facing (expand (.li 3 (-2 ^ 63))) w13).env.events = expand (.li 3 (-2 ^ 63)) ∧
    w13.env.arrivals = [] ∧
    (Pseudo.li 3 (-2 ^ 63)).wellFormed = true :=
  ⟨witness_inv_facing _, rfl, rfl, rfl, rfl, rfl, rfl, by decide⟩

theorem witness_EveryStepKeepsInvariant :
    (busy13.Inv ∧ ∃ t, step busy13 = .next t) ∧ (waiting13.Inv ∧ ∃ t, step waiting13 = .next t) :=
  ⟨⟨witness_inv_busy13, _, rfl⟩, witness_inv_waiting13, _, rfl⟩

/-- A reachable configured state and a reachable unconfigured one. -/
theorem witness_ReachableResiduesAreReduced :
    (∃ t, Reaches (State.start [.W 0x0C 13] [] [0]) t ∧ t.cfgValid = true) ∧
    (∃ t, Reaches (State.start [.W 0x0C 13] [] [0]) t ∧ t.cfgValid = false) :=
  ⟨⟨_, .later (.later (.here _) rfl) rfl, rfl⟩, _, .here _, rfl⟩

theorem witness_ConfigFlagsChangeOnlyByConfigOrReset : State.reset.Inv ∧ ∃ t, step State.reset = .next t :=
  ⟨witness_inv_reset, _, rfl⟩

/-- `POW r1, r0` completes: x[1] goes from 7 to 2^3 = 8. -/
theorem witness_ResidueWrittenOnlyByItsCommandOrReset : ∃ t, step busy13 = .next t ∧ t.reg 1 ≠ busy13.reg 1 :=
  ⟨_, rfl, by decide⟩

theorem witness_DroppedIsSticky :
    (∃ t, step { w13 with dropped := true } = .next t) ∧
    (∃ t, step (facing [.W 0x0C 7] w13) = .next t ∧ w13.dropped = false ∧ t.dropped = true) :=
  ⟨⟨_, rfl⟩, _, rfl, rfl, rfl⟩

theorem witness_ModulusIsWriteOnce :
    ((facing [.W 0x0C 7] w13).Inv ∧ (∃ t, step (facing [.W 0x0C 7] w13) = .next t) ∧ w13.cfgValid = true) ∧
    (faulted.Inv ∧ (∃ t, step faulted = .next t) ∧ faulted.cfgFault = true) :=
  ⟨⟨witness_inv_facing _, ⟨_, rfl⟩, rfl⟩, witness_inv_faulted, ⟨_, rfl⟩, rfl⟩

theorem witness_inv_faultedRunning : (running 0x00000001 faulted).Inv where
  busy_pending := by decide
  done_not_busy := by decide
  fresh := by decide
  busy_no_error := by decide
  errcode_valid := by decide
  not_valid_and_fault := by decide
  prime_valid := by decide
  modulus_unconfigured := by decide
  modulus_legal := by decide
  prime_exact := by decide
  residue_unconfigured := by decide
  residue_reduced := by decide
  pending_agrees := ⟨rfl, rfl, rfl, rfl, rfl, rfl⟩
  held_in_reset := by decide

theorem witness_ConfigFaultIsFatalUntilReset :
    (running 0x00000001 faulted).Inv ∧ (running 0x00000001 faulted).cfgFault = true ∧
    (running 0x00000001 faulted).completing (faulted.snapshot 0x00000001) ∧
    ∃ t, step (running 0x00000001 faulted) = .next t ∧ t.isReset = false :=
  ⟨witness_inv_faultedRunning, rfl, ⟨rfl, rfl⟩, _, rfl, by decide⟩

theorem witness_LoadingAResidueIsIdentity :
    (completes (snap13 1 0 0 12)).completing (snap13 1 0 0 12) ∧ (snap13 1 0 0 12).configured ∧
    (snap13 1 0 0 12).arg.toNat < (snap13 1 0 0 12).m.toNat :=
  ⟨completes_completing _, configured13 _ _ (by decide) (by decide), by decide⟩

theorem witness_MultiplicationLawsHold : 2 ≤ 2 ^ 31 - 1 ∧ 2 ^ 31 - 1 < 2 ^ 31 ∧ 2 ^ 31 - 2 < 2 ^ 31 - 1 := by decide

theorem witness_InverseLawsHold : (2 ≤ 15 ∧ 15 < 2 ^ 31 ∧ 14 < 15 ∧ Nat.gcd 14 15 = 1) ∧ (0 < 15 ∧ 2 < 15 ∧ Nat.gcd 2 15 = 1) := by
  decide

/-- `POW(2, -1) ⊗ POW(2, 1) = POW(2, 0)` modulo 13. -/
theorem witness_PowerLawsHold :
    (2 ≤ 13 ∧ 13 < 2 ^ 31 ∧ 2 < 13) ∧
    (inSigned64 (-1) = true ∧ inSigned64 1 = true ∧ inSigned64 (-1 + 1) = true) ∧
    (powOf 2 13 (-1) = .finish 7 ∧ powOf 2 13 1 = .finish 2 ∧ powOf 2 13 (-1 + 1) = .finish 1) := by decide

theorem witness_FermatPowersHold : (Nat.Prime 2 ∧ 2 < 2 ^ 31 ∧ 0 < 1 ∧ 1 < 2) ∧ (Nat.Prime 13 ∧ 13 < 2 ^ 31 ∧ 12 < 13) :=
  ⟨⟨Nat.prime_two, by decide⟩, prime13, by decide⟩

/-- `SQRT(10) = 6` modulo 13 (R239's first clause), and an odd prime (its second). -/
theorem witness_SqrtLawsHold :
    ((snap13 0x40 10 0 0).configured ∧ sqrtResult (snap13 0x40 10 0 0) = .finish 6) ∧
    (Nat.Prime 13 ∧ 13 ≠ 2 ∧ 13 < 2 ^ 31 ∧ 12 < 13) :=
  ⟨⟨configured13 _ _ (by decide) (by decide), by decide⟩, prime13, by decide⟩

theorem witness_NegativePowerFailsAsInverseDoes :
    (2 ≤ 15 ∧ 15 < 2 ^ 31 ∧ 3 < 15) ∧ (inSigned64 (-2 ^ 63) = true ∧ (-2 ^ 63 : Int) < 0) ∧
    (inSigned64 (2 ^ 63 - 1) = true ∧ (0 : Int) ≤ 2 ^ 63 - 1) := by decide

/-- In the middle of the wait loop, a soft reset by another master and a reset pulse are due. -/
theorem witness_PollEndsByReset :
    waiting13.env.turn = .host ∧ waiting13.env.resetLine = false ∧ waiting13.pending.isSome = true ∧
    waiting13.env.events = .poll :: [] ∧ (1 : Word).getLsbD 0 = true ∧
    (arriving [(0, .W 0x04 1), (3, .R 0x08)] waiting13).env.arrivals = (0, Event.W 0x04 1) :: [(3, .R 0x08)] ∧
    (arriving [(0, .assertReset), (0, .releaseReset)] waiting13).env.arrivals =
      (0, .assertReset) :: (0, .releaseReset) :: [] ∧
    ∀ e later, [(3, Event.R 0x08)] ≠ (0, e) :: later := by
  refine ⟨rfl, rfl, rfl, rfl, by decide, rfl, rfl, ?_⟩
  intro e later h
  cases h

end Sys2Proof.Tests
end

section
/-! SUPPORT. The state statements of spec/10_state.md: what one step can do to the block, whatever stands beside it
(`BlockEffect`), the invariant kept by each such effect, and the rules about every step read off from them. -/

namespace Sys2Proof.Machine

/-! ### The reset state -/

theorem State.isReset_iff {s : State} : s.isReset = true ↔ s.blockReset = s := by
  simp [State.isReset]

@[simp] theorem State.isReset_blockReset (s : State) : s.blockReset.isReset = true :=
  State.isReset_iff.mpr rfl

/-- Being reset speaks of the block alone. -/
@[simp] theorem State.isReset_withEnv (s : State) (e : Env) : (s.withEnv e).isReset = s.isReset := by
  rw [Bool.eq_iff_iff, State.isReset_iff, State.isReset_iff]
  constructor
  · intro h
    have h' := congrArg (State.withEnv s.env) h
    exact h'
  · intro h
    have h' := congrArg (State.withEnv e) h
    exact h'

theorem State.configurable_iff {s : State} :
    s.configurable = true ↔ s.busy = false ∧ s.cfgValid = false ∧ s.cfgFault = false := by
  simp [State.configurable, and_assoc]

/-- A block that is reset but for ARG can be configured. -/
theorem State.configurable_of_isReset {s : State} (h : { s with arg := 0 }.isReset = true) : s.configurable = true := by
  have hs := State.isReset_iff.mp h
  exact State.configurable_iff.mpr
    ⟨(congrArg State.busy hs).symm, (congrArg State.cfgValid hs).symm, (congrArg State.cfgFault hs).symm⟩

/-! ### What one step can do to the block -/

/-- The effects of a step on the block. `step_effect` reads them up to what stands beside the block; the `e` of `reset`
makes it the effect of SRST and of the reset input alike. -/
inductive BlockEffect (s : State) : State → Prop
  /-- A read, an ignored write, a reset edge that falls, or nothing at all. -/
  | kept : BlockEffect s s
  /-- SRST or the reset input (R146, R290). -/
  | reset (e : Env) : BlockEffect s (s.blockReset.withEnv e)
  /-- A write of one half of ARG (R37). -/
  | argWritten (a : DWord) (hl : s.env.resetLine = false) : BlockEffect s { s with arg := a }
  /-- A CMD or MODULUS write that cannot be accepted (R130). -/
  | dropped (hl : s.env.resetLine = false) (hc : s.configurable = false) : BlockEffect s s.drop
  /-- A CMD write with BUSY = 0 (R122). -/
  | commandAccepted (w : Word) (hl : s.env.resetLine = false) (hb : s.busy = false) :
      BlockEffect s { s.accept (.command (s.snapshot w)) with lastcmd := w }
  /-- A MODULUS write that can be accepted (R141). -/
  | configAccepted (w : Word) (hl : s.env.resetLine = false) (hc : s.configurable = true) :
      BlockEffect s (s.accept (.config w))
  /-- The completion of a configuration (R143). -/
  | configCompleted (w : Word) (ht : s.env.turn = .engine) (hp : s.pending = some (.config w)) :
      BlockEffect s (s.completeConfig w (isPrime w.toNat))
  /-- The successful completion of a command (R126). -/
  | commandFinished (snap : Snap) (i : Instr) (own : Snap → Result) (v : Nat) (hc : s.completing snap)
      (ho : ownOutcome i = some (rdField snap.cmd, own)) (hv : commonChecks snap own = .finish v) :
      BlockEffect s (s.finishCommand (rdField snap.cmd) v)
  /-- The completion of a command with an error (R127). -/
  | commandFailed (snap : Snap) (err : ErrorCode) (hc : s.completing snap) : BlockEffect s (s.raiseError err)

/-- A completion step's effect on the block. -/
theorem completeOperation_effect {s u : State} {op : Operation} (ht : s.env.turn = .engine) (hp : s.pending = some op)
    (h : completeOperation op s = .next u) : BlockEffect s u := by
  obtain ⟨w, rfl, rfl⟩ | ⟨snap, i, own, rfl, -, ho, rfl⟩ | ⟨snap, why, rfl, -, rfl⟩ :=
    completeOperation_cases ht hp h
  · exact .configCompleted w ht hp
  · cases hv : commonChecks snap own with
    | finish v => exact .commandFinished snap i own v ⟨ht, hp⟩ ho hv
    | raise err => exact .commandFailed snap err ⟨ht, hp⟩
  · exact .commandFailed snap .illegalCommand ⟨ht, hp⟩

/-- `t` is `u` with other surroundings, whose reset input is asserted only where that of `u` is. -/
def State.EnvMoved (u t : State) : Prop :=
  ∃ e : Env, (e.resetLine = true → u.env.resetLine = true) ∧ t = u.withEnv e

theorem State.EnvMoved.of_resetLine_eq {u : State} (e : Env) (h : e.resetLine = u.env.resetLine) :
    u.EnvMoved (u.withEnv e) := ⟨e, fun he => h ▸ he, rfl⟩

theorem State.EnvMoved.schedule {u t : State} (h : u.EnvMoved t) : u.EnvMoved t.schedule := by
  obtain ⟨e, he, rfl⟩ := h
  refine ⟨(u.withEnv e).schedule.env, by simpa using he, ?_⟩
  unfold State.schedule
  split <;> rfl

/-- A turn of the outside world's effect on the block. -/
theorem HostEffect.effect {s u : State} (h : HostEffect s u) : ∃ b, BlockEffect s b ∧ b.EnvMoved u := by
  cases h with
  | nothing l es => exact ⟨s, .kept, .of_resetLine_eq _ rfl⟩
  | read l es r hl => exact ⟨s, .kept, .of_resetLine_eq _ rfl⟩
  | cmd l es w hl =>
    cases hb : s.busy with
    | true =>
      rw [writeCmd_busy w (s := s.toCome l es) hb]
      exact ⟨_, .dropped hl (by simp [State.configurable, hb]), .of_resetLine_eq _ rfl⟩
    | false =>
      rw [writeCmd_idle w (s := s.toCome l es) hb]
      exact ⟨_, .commandAccepted w hl hb, .of_resetLine_eq _ (by simp)⟩
  | modulus l es w hl =>
    cases hc : s.configurable with
    | true =>
      rw [writeModulus_accepted w (s := s.toCome l es) hc]
      exact ⟨_, .configAccepted w hl hc, .of_resetLine_eq _ (by simp)⟩
    | false =>
      rw [writeModulus_dropped w (s := s.toCome l es) hc]
      exact ⟨_, .dropped hl hc, .of_resetLine_eq _ rfl⟩
  | ctrl l es v hl =>
    cases hv : v.getLsbD 0 with
    | true => rw [writeCtrl_reset _ hv]; exact ⟨_, .reset s.env, .of_resetLine_eq _ rfl⟩
    | false => rw [writeCtrl_nothing _ hv]; exact ⟨s, .kept, .of_resetLine_eq _ rfl⟩
  | argLo l es v hl => exact ⟨_, .argWritten _ hl, .of_resetLine_eq _ rfl⟩
  | argHi l es v hl => exact ⟨_, .argWritten _ hl, .of_resetLine_eq _ rfl⟩
  | assertReset l es => exact ⟨_, .reset (s.toCome l es).assertReset.env, .of_resetLine_eq _ rfl⟩
  | releaseReset l es => exact ⟨s, .kept, (s.toCome l es).releaseReset.env, nofun, rfl⟩

/-- A step is one effect on the block and a move of what stands beside it. -/
theorem step_effect {s t : State} (h : step s = .next t) : ∃ b, BlockEffect s b ∧ b.EnvMoved t := by
  obtain ⟨op, u, ht, hp, hu, rfl⟩ | ⟨u, -, hu, rfl⟩ := step_cases h
  · exact ⟨u, completeOperation_effect ht hp hu, (State.EnvMoved.of_resetLine_eq u.env rfl).schedule⟩
  · obtain ⟨b, hb, hm⟩ := hu.effect
    exact ⟨b, hb, hm.schedule⟩

/-! ### Each effect keeps the invariant -/

/-- A block in its reset state meets the invariant, whatever stands beside it. -/
theorem State.inv_of_isReset {s : State} (h : s.isReset = true) : s.Inv := by
  rw [← State.isReset_iff.mp h]
  exact {
    busy_pending := rfl
    done_not_busy := nofun
    fresh := fun _ _ => s.isReset_blockReset
    busy_no_error := nofun
    errcode_valid := rfl
    not_valid_and_fault := nofun
    prime_valid := nofun
    modulus_unconfigured := fun _ => rfl
    modulus_legal := nofun
    prime_exact := nofun
    residue_unconfigured := fun _ => s.reg_blockReset
    residue_reduced := nofun
    pending_agrees := trivial
    held_in_reset := fun _ => s.isReset_blockReset }

section

variable {s : State}

theorem State.Inv.envMoved {t : State} (h : s.Inv) (hm : s.EnvMoved t) : t.Inv := by
  obtain ⟨e, he, rfl⟩ := hm
  exact { h with
    fresh := fun hb hd => (State.isReset_withEnv { s with arg := 0 } e).trans (h.fresh hb hd)
    held_in_reset := fun hl => (s.isReset_withEnv e).trans (h.held_in_reset (he hl)) }

theorem State.Inv.argWritten (h : s.Inv) (hl : s.env.resetLine = false) (a : DWord) : State.Inv { s with arg := a } :=
  { h with held_in_reset := by simp [hl] }

/-- A block that cannot be configured is not fresh, so DROPPED may rise. -/
theorem State.Inv.drop (h : s.Inv) (hl : s.env.resetLine = false) (hc : s.configurable = false) : s.drop.Inv :=
  { h with
    fresh := fun hb hd => by
      have := State.configurable_of_isReset (h.fresh hb hd)
      simp [hc] at this
    held_in_reset := by simp [hl] }

/-- Acceptance; `w` is the word LASTCMD then holds. -/
theorem State.Inv.accept (h : s.Inv) (hl : s.env.resetLine = false) (op : Operation) (w : Word)
    (ha : pendingAgrees { s with lastcmd := w } (some op)) : State.Inv { s.accept op with lastcmd := w } :=
  { h with
    busy_pending := rfl
    done_not_busy := fun _ => rfl
    fresh := nofun
    busy_no_error := fun _ => rfl
    errcode_valid := rfl
    pending_agrees := ha
    held_in_reset := by simp [hl] }

/-- An operation is in flight only while the reset input is released (R290). -/
theorem State.Inv.resetLine_of_pending (h : s.Inv) {op : Operation} (hp : s.pending = some op) :
    s.env.resetLine = false := by
  by_contra hl
  have hr := State.isReset_iff.mp (h.held_in_reset (by simpa using hl))
  rw [← hr] at hp
  cases hp

theorem State.Inv.raiseError (h : s.Inv) (hl : s.env.resetLine = false) (e : ErrorCode) : (s.raiseError e).Inv :=
  { h with
    busy_pending := rfl
    done_not_busy := nofun
    fresh := nofun
    busy_no_error := nofun
    errcode_valid := by cases e <;> rfl
    pending_agrees := trivial
    held_in_reset := by simp [hl] }

/-- A result below the modulus can be written: MODULUS is then not 0, so the block is configured. -/
theorem State.Inv.finishCommand (h : s.Inv) (hl : s.env.resetLine = false) (rd : Reg) {v : Nat}
    (hv : v < s.modulus.toNat) : (s.finishCommand rd v).Inv :=
  have hcfg : s.cfgValid = true := by
    by_contra hc
    simp [h.modulus_unconfigured (by simpa using hc)] at hv
  { h with
    busy_pending := rfl
    done_not_busy := nofun
    fresh := nofun
    busy_no_error := nofun
    errcode_valid := rfl
    residue_unconfigured := by simp [hcfg]
    residue_reduced := fun hc j => by
      rw [State.reg_finishCommand, State.finishCommand_modulus]
      split
      · simpa [Nat.mod_eq_of_lt (hv.trans s.modulus.isLt)] using hv
      · exact h.residue_reduced hc j
    pending_agrees := trivial
    held_in_reset := by simp [hl] }

theorem completeConfig_legal {w : Word} (h : legalModulus w = true) (prime : Bool) (s : State) :
    s.completeConfig w prime =
      { s.flagsCompleted 0 with modulus := w, cfgValid := true, modPrime := prime, pending := none } := by
  rw [State.completeConfig, if_pos h]

theorem completeConfig_illegal {w : Word} (h : legalModulus w = false) (prime : Bool) (s : State) :
    s.completeConfig w prime = { s.raiseError .invalidModulusConfig with cfgFault := true } := by
  simp only [State.completeConfig, h, Bool.false_eq_true, if_false]

theorem legalModulus_iff {w : Word} : legalModulus w = true ↔ 2 ≤ w.toNat ∧ w.toNat ≤ 2 ^ 31 - 1 := by
  simp [legalModulus]

/-- A configuration completes on an unconfigured block, whose residues are 0 and so below any legal modulus. -/
theorem State.Inv.completeConfig (h : s.Inv) {w : Word} (hp : s.pending = some (.config w)) :
    (s.completeConfig w (isPrime w.toNat)).Inv := by
  have hl := h.resetLine_of_pending hp
  have ha : pendingAgrees s (some (.config w)) := hp ▸ h.pending_agrees
  obtain ⟨hcv, hcf⟩ := ha
  cases hw : legalModulus w with
  | true =>
    rw [completeConfig_legal hw]
    exact { h with
      busy_pending := rfl
      done_not_busy := nofun
      fresh := nofun
      busy_no_error := nofun
      errcode_valid := rfl
      not_valid_and_fault := fun _ => hcf
      prime_valid := fun _ => rfl
      modulus_unconfigured := nofun
      modulus_legal := fun _ => hw
      prime_exact := fun _ => rfl
      residue_unconfigured := nofun
      residue_reduced := fun _ i => by
        have h0 : s.reg i = 0 := h.residue_unconfigured hcv i
        have h2 := (legalModulus_iff.mp hw).1
        change (s.reg i).toNat < w.toNat
        rw [h0]
        exact Nat.lt_of_lt_of_le Nat.two_pos h2
      pending_agrees := trivial
      held_in_reset := by simp [hl] }
  | false =>
    rw [completeConfig_illegal hw]
    exact { h.raiseError hl .invalidModulusConfig with
      fresh := nofun
      not_valid_and_fault := by simp [hcv]
      pending_agrees := trivial
      held_in_reset := by simp [hl] }

/-- A command that finishes has passed the common checks, so its result is below the latched modulus. -/
theorem commonChecks_finish_lt {i : Instr} {rd : Reg} {own : Snap → Result} (ho : ownOutcome i = some (rd, own))
    {snap : Snap} (ha : snap.m ≠ 0 → snap.a.toNat < snap.m.toNat) {v : Nat} (hv : commonChecks snap own = .finish v) :
    v < snap.m.toNat := by
  by_cases hm : snap.m = 0
  · rw [commonChecks_unconfigured own hm] at hv
    cases hv
  · rw [commonChecks_configured own hm] at hv
    have hlt := ha hm
    exact ownOutcome_lt ho (by omega) hlt hv

/-- Every effect of a step keeps the invariant. -/
theorem BlockEffect.inv {b : State} (hb : BlockEffect s b) (h : s.Inv) : b.Inv := by
  cases hb with
  | kept => exact h
  | reset e => exact State.inv_of_isReset (by simp)
  | argWritten a hl => exact h.argWritten hl a
  | dropped hl hc => exact h.drop hl hc
  | commandAccepted w hl hb => exact h.accept hl _ w ⟨rfl, rfl, rfl, rfl, rfl, rfl⟩
  | configAccepted w hl hc =>
    obtain ⟨-, hv, hf⟩ := State.configurable_iff.mp hc
    exact h.accept hl (.config w) s.lastcmd ⟨hv, hf⟩
  | configCompleted w ht hp => exact h.completeConfig hp
  | commandFinished snap i own v hc ho hv =>
    have hp : s.pending = some (.command snap) := hc.2
    have ha : pendingAgrees s (some (.command snap)) := hp ▸ h.pending_agrees
    obtain ⟨-, hra, -, hm, -, -⟩ := ha
    have hlt : v < snap.m.toNat := by
      refine commonChecks_finish_lt ho (fun hm0 => ?_) hv
      have hcfg : s.cfgValid = true := by
        by_contra hc0
        exact hm0 (hm.trans (h.modulus_unconfigured (by simpa using hc0)))
      rw [hra, hm]
      exact h.residue_reduced hcfg _
    exact h.finishCommand (h.resetLine_of_pending hp) _ (hm ▸ hlt)
  | commandFailed snap err hc => exact h.raiseError (h.resetLine_of_pending hc.2) err

end

/-- A step keeps the invariant: its effect on the block does, and then so does the move of what stands beside it. -/
theorem step_inv {s t : State} (h : s.Inv) (hst : step s = .next t) : t.Inv := by
  obtain ⟨b, hb, hm⟩ := step_effect hst
  exact (hb.inv h).envMoved hm

/-- Settles O40, by `step_inv`. -/
theorem everyStepKeepsInvariant : Obligations.EveryStepKeepsInvariant :=
  fun _ _ => step_inv

/-- Settles O39: the reset state and every start of a run are reset blocks. -/
theorem invariantHoldsAfterReset : Obligations.InvariantHoldsAfterReset :=
  ⟨State.inv_of_isReset State.reset.isReset_blockReset,
    fun events arrivals latencies =>
      State.inv_of_isReset (State.start events arrivals latencies).isReset_blockReset⟩

/-- The invariant holds in every state a run comes to. -/
theorem Reaches.inv {s t : State} (hr : Reaches s t) (h : s.Inv) : t.Inv := by
  induction hr with
  | here => exact h
  | later _ hst ih => exact step_inv ih hst

/-- Settles O41: a run starts in the invariant and every step keeps it. -/
theorem reachableResiduesAreReduced : Obligations.ReachableResiduesAreReduced := by
  intro events arrivals latencies t hr
  have h : t.Inv := hr.inv (invariantHoldsAfterReset.2 events arrivals latencies)
  refine ⟨fun hc => ?_, h.residue_unconfigured⟩
  obtain ⟨h2, hle⟩ := legalModulus_iff.mp (h.modulus_legal hc)
  exact ⟨h2, by omega, h.residue_reduced hc⟩

/-! ### What each effect leaves unchanged -/

@[simp] theorem State.completeConfig_x (w : Word) (prime : Bool) (s : State) : (s.completeConfig w prime).x = s.x := by
  unfold State.completeConfig; split <;> rfl
@[simp] theorem State.completeConfig_dropped (w : Word) (prime : Bool) (s : State) :
    (s.completeConfig w prime).dropped = s.dropped := by
  unfold State.completeConfig; split <;> rfl
@[simp] theorem State.completeConfig_arg (w : Word) (prime : Bool) (s : State) :
    (s.completeConfig w prime).arg = s.arg := by
  unfold State.completeConfig; split <;> rfl

/-- Two states with the same configuration: MODULUS and the three flags of R34. -/
structure State.SameConfig (s t : State) : Prop where
  modulus  : t.modulus = s.modulus
  cfgValid : t.cfgValid = s.cfgValid
  modPrime : t.modPrime = s.modPrime
  cfgFault : t.cfgFault = s.cfgFault

section

variable {s : State}

/-- An effect keeps the configuration unless it completes one or resets (R34, R36). -/
theorem BlockEffect.sameConfig {b : State} (hb : BlockEffect s b) :
    s.SameConfig b ∨ (s.env.turn = .engine ∧ ∃ w, s.pending = some (.config w)) ∨ b.isReset = true := by
  cases hb with
  | reset e => exact .inr (.inr (by simp))
  | configCompleted w ht hp => exact .inr (.inl ⟨ht, w, hp⟩)
  | _ => exact .inl ⟨rfl, rfl, rfl, rfl⟩

/-- An effect keeps register i unless it finishes a command whose RD field is i, or resets (R24). -/
theorem BlockEffect.reg {b : State} (hb : BlockEffect s b) (i : Reg) :
    b.reg i = s.reg i ∨ (∃ snap, s.completing snap ∧ rdField snap.cmd = i ∧ b.done = true ∧ b.errcode = 0) ∨
      b.isReset = true := by
  cases hb with
  | reset e => exact .inr (.inr (by simp))
  | configCompleted w ht hp => exact .inl (State.reg_congr (by simp) i)
  | commandFinished snap j own v hc ho hv =>
    by_cases hi : i = rdField snap.cmd
    · exact .inr (.inl ⟨snap, hc, hi.symm, rfl, rfl⟩)
    · rw [State.reg_finishCommand, if_neg hi]
      exact .inl rfl
  | _ => exact .inl rfl

/-- An effect keeps DROPPED unless it drops a write that cannot be accepted, or resets (R35). -/
theorem BlockEffect.dropped_cases {b : State} (hb : BlockEffect s b) :
    b.dropped = s.dropped ∨ (b.dropped = true ∧ s.configurable = false) ∨ b.isReset = true := by
  cases hb with
  | reset e => exact .inr (.inr (by simp))
  | dropped hl hc => exact .inr (.inl ⟨rfl, hc⟩)
  | configCompleted w ht hp => exact .inl (by simp)
  | _ => exact .inl rfl

end

/-- Settles O42: the flags move only with `BlockEffect.configCompleted` or `BlockEffect.reset`, and the invariant of the
next state bounds them. -/
theorem configFlagsChangeOnlyByConfigOrReset : Obligations.ConfigFlagsChangeOnlyByConfigOrReset := by
  intro s t h hst
  have ht : t.Inv := step_inv h hst
  refine ⟨?_, fun ⟨hv, hf⟩ => by simp [ht.not_valid_and_fault hv] at hf, ht.prime_valid⟩
  obtain ⟨b, hb, e, -, rfl⟩ := step_effect hst
  obtain hc | hc | hr := hb.sameConfig
  · exact .inl ⟨hc.cfgValid, hc.modPrime, hc.cfgFault⟩
  · exact .inr (.inl hc)
  · exact .inr (.inr (by simpa using hr))

/-- Settles O45: a configuration in flight means that the block is neither configured nor faulted. -/
theorem modulusIsWriteOnce : Obligations.ModulusIsWriteOnce := by
  intro s t h hst hcfg
  obtain ⟨b, hb, e, -, rfl⟩ := step_effect hst
  obtain hc | ⟨-, w, hp⟩ | hr := hb.sameConfig
  · exact .inl hc.modulus
  · have ha : pendingAgrees s (some (.config w)) := hp ▸ h.pending_agrees
    obtain ⟨hv, hf⟩ := ha
    simp [hv, hf] at hcfg
  · exact .inr (by simpa using hr)

/-- Settles O44: DROPPED moves only with `BlockEffect.dropped` or `BlockEffect.reset`, and a reset clears it. -/
theorem droppedIsSticky : Obligations.DroppedIsSticky := by
  intro s t hst
  obtain ⟨b, hb, e, -, rfl⟩ := step_effect hst
  simp only [State.withEnv_dropped, State.isReset_withEnv]
  obtain hd | ⟨hd, hc⟩ | hr := hb.dropped_cases
  · rw [hd]
    exact ⟨.inl, fun h0 h1 => by simp [h0] at h1⟩
  · refine ⟨fun _ => .inl hd, fun _ _ => ?_⟩
    simpa [State.configurable, or_iff_not_imp_left] using hc
  · refine ⟨fun _ => .inr hr, fun _ h1 => ?_⟩
    rw [← State.isReset_iff.mp hr] at h1
    cases h1

/-! ### The register window -/

/-- A read at a register's offset returns that register's word (R27, R67). -/
theorem readReg_at_offset (s : State) (r : RegName) : (RegName.ofOffset r.offset).map s.readReg = some (s.readReg r) := by
  rw [ofOffset_offset, Option.map_some]

/-- The offsets from 0x40 up are reserved (R39). -/
theorem ofOffset_reserved {off : Nat} (h : 0x40 ≤ off) (h' : off < 0x80) (h4 : off % 4 = 0) :
    RegName.ofOffset off = some .reserved := by
  unfold RegName.ofOffset
  repeat' rw [if_neg (by omega)]

/-- A write to a read-only or reserved register is ignored (R28, R30, R39, R40). -/
theorem writeReg_readOnly {r : RegName} (h : r.access = .readOnly) (v : Word) (s : State) : writeReg r v s = .next s := by
  cases r with
  | ctrl | modulus | argLo | argHi | cmd => cases h
  | id | status | reserved | residue i => rfl

/-- Settles O43: only `BlockEffect.commandFinished` and `BlockEffect.reset` write a residue register. -/
theorem residueWrittenOnlyByItsCommandOrReset : Obligations.ResidueWrittenOnlyByItsCommandOrReset := by
  refine ⟨fun s t i hst hne => ?_, fun s i => readReg_at_offset s (.residue i), fun s i v => writeReg_readOnly rfl v s⟩
  obtain ⟨b, hb, e, -, rfl⟩ := step_effect hst
  simpa using (hb.reg i).resolve_left hne

/-- Settles O7: each register's offset by `readReg_at_offset`, the reserved tail and the domain of the map. -/
theorem windowReadsByOffset : Obligations.WindowReadsByOffset := fun s =>
  ⟨readReg_at_offset s .id, readReg_at_offset s .ctrl, readReg_at_offset s .status, readReg_at_offset s .modulus,
    readReg_at_offset s .argLo, readReg_at_offset s .argHi, readReg_at_offset s .cmd, readReg_at_offset s .reserved,
    fun i => readReg_at_offset s (.residue i),
    fun off h h' h4 => by rw [ofOffset_reserved h h' h4]; rfl,
    ofOffset_isSome⟩

/-- Settles O10: the read-only registers by `writeReg_readOnly`; a CTRL word with bit 0 clear decodes to no operation. -/
theorem ignoredWritesChangeNothing : Obligations.IgnoredWritesChangeNothing := by
  refine fun s v => ⟨fun r hr => writeReg_readOnly hr v s, fun hv => ?_⟩
  simp only [writeReg, decodeRegWrite, hv, Bool.false_eq_true, if_false]

/-- Settles O11: each half of ARG is read back by the laws of its halves. -/
theorem argWritesReplaceOneWord : Obligations.ArgWritesReplaceOneWord := fun s v =>
  ⟨⟨s.setArgLo v, rfl, argLo_append _ v, argHi_append _ v, rfl⟩,
    ⟨s.setArgHi v, rfl, argHi_append v _, argLo_append v _, rfl⟩⟩

/-! ### The STATUS word -/

theorem getLsbD_zero_append_bit {n : Nat} (w : BitVec n) (c : BitVec 1) : (w ++ c).getLsbD 0 = c.getLsbD 0 := by
  rw [BitVec.getLsbD_append, if_pos Nat.one_pos]

theorem getLsbD_succ_append_bit {n : Nat} (w : BitVec n) (c : BitVec 1) (k : Nat) :
    (w ++ c).getLsbD (k + 1) = w.getLsbD k := by
  rw [BitVec.getLsbD_append, if_neg (by omega), Nat.add_sub_cancel]

@[simp] theorem getLsbD_flagBit_zero (b : Bool) : (flagBit b).getLsbD 0 = b := by
  cases b <;> rfl

/-- The bits of STATUS, from bit 0 up (R30). -/
theorem status_getLsbD (s : State) (k : Nat) :
    s.status.getLsbD k = match k with
      | 0 => s.busy
      | 1 => s.done
      | 2 => s.err
      | 3 => s.cfgValid
      | 4 => s.modPrime
      | 5 => s.cfgFault
      | 6 => s.dropped
      | 7 => false
      | j + 8 => s.errcode.getLsbD j := by
  change BitVec.getLsbD (w := 20 + 4 + 1 + 1 + 1 + 1 + 1 + 1 + 1 + 1) s.status k = _
  unfold State.status
  split <;> simp only [getLsbD_zero_append_bit, getLsbD_succ_append_bit, getLsbD_flagBit_zero]
  · rfl
  · rename_i j
    rw [BitVec.getLsbD_append]
    split
    · rfl
    · rw [BitVec.getLsbD_of_ge s.errcode j (by omega)]
      exact BitVec.getLsbD_zero
/-- Settles O8: each bit by `status_getLsbD`; from bit 8 up these are ERRCODE's four bits and then zeros. -/
theorem statusWordFields : Obligations.StatusWordFields := by
  intro s
  refine ⟨status_getLsbD s 0, status_getLsbD s 1, status_getLsbD s 2, status_getLsbD s 3, status_getLsbD s 4,
    status_getLsbD s 5, status_getLsbD s 6, status_getLsbD s 7, ?_, fun k hk => ?_⟩
  · apply BitVec.eq_of_getLsbD_eq
    intro j hj
    rw [BitVec.getLsbD_extractLsb', Nat.add_comm, status_getLsbD]
    simp [hj]
  · obtain ⟨j, rfl⟩ := Nat.exists_eq_add_of_le' (show 8 ≤ k by omega)
    rw [status_getLsbD]
    exact BitVec.getLsbD_of_ge _ _ (by omega)

/-! ### ARG and the operations -/

@[simp] theorem State.writeCmd_arg (w : Word) (s : State) : (s.writeCmd w).arg = s.arg := by
  unfold State.writeCmd; split <;> rfl
@[simp] theorem State.writeModulus_arg (w : Word) (s : State) : (s.writeModulus w).arg = s.arg := by
  unfold State.writeModulus; split <;> rfl
@[simp] theorem State.completeCommand_arg (rd : Reg) (r : Result) (s : State) : (s.completeCommand rd r).arg = s.arg := by
  cases r <;> rfl

/-- A command's meaning, completion or CMD write, leaves ARG alone. -/
theorem runCommand_arg {i : Instr} {rd : Reg} {own : Snap → Result} {s t : State} (h : runCommand i rd own s = .next t) :
    t.arg = s.arg := by
  unfold runCommand at h
  split at h <;> injection h with h <;> subst h <;> simp

/-- CONFIG's meaning, completion or MODULUS write, leaves ARG alone. -/
theorem execConfig_arg {w : Word} {s t : State} (h : execConfig w s = .next t) : t.arg = s.arg := by
  unfold execConfig at h
  split at h <;> injection h with h <;> subst h <;> simp

/-- Settles O12: the commands by `runCommand_arg`, CONFIG by `execConfig_arg`; SRST writes ARG only as the reset. -/
theorem noOperationWritesArg : Obligations.NoOperationWritesArg := by
  intro i s t h
  cases i with
  | config w => exact .inl (execConfig_arg h)
  | srst v =>
    rw [exec_srst] at h
    injection h with h
    subst h
    cases hv : v.getLsbD 0 with
    | true => exact .inr ⟨v, rfl, by rw [writeCtrl_reset s hv]; rfl⟩
    | false => exact .inl (by rw [writeCtrl_nothing s hv])
  | _ => exact .inl (runCommand_arg h)

end Sys2Proof.Machine
end

section
/-! SUPPORT. The bus statements of spec/20_memory.md: the byte lanes of a word, which host accesses are defined, and
what a step that serves one can answer. -/

namespace Sys2Proof

/-! ### Byte lanes -/

/-- Bit j of lane k is bit 8k + j of the word (R65). -/
theorem byteLane_getLsbD (w : Word) (k : Nat) {j : Nat} (hj : j < 8) :
    (byteLane k w).getLsbD j = w.getLsbD (8 * k + j) := by
  simp [byteLane, hj]

/-- The lanes of a word are decoded as the write of the word (R65). -/
theorem decodeBytes_wordToLanes (off : Nat) (w : Word) : decodeBytes off (wordToLanes w) = decodeWrite ⟨off, w⟩ := by
  rw [wordToLanes, decodeBytes, wordOfLanes_byteLane]

/-- A write of any number of bytes but four is no defined access (R62, R63). -/
theorem decodeBytes_of_length_ne (off : Nat) {bs : List Byte} (h : bs.length ≠ 4) :
    decodeBytes off bs = .undefinedAccess := by
  unfold decodeBytes
  split
  · exact absurd rfl h
  · rfl

/-- A write that reaches a register always has a meaning (R68). -/
theorem decodeRegWrite_ne_undefinedAccess (r : RegName) (v : Word) : decodeRegWrite r v ≠ .undefinedAccess := by
  cases r with
  | ctrl | cmd => rw [decodeRegWrite]; split <;> nofun
  | _ => nofun

end Sys2Proof

namespace Sys2Proof.Machine

/-- Settles O6: a lane's bits, the four lanes of a word, and any other number of bytes, each by its lemma. -/
theorem byteLanesCarryTheWord : Obligations.ByteLanesCarryTheWord :=
  ⟨fun w k _ _ hj => byteLane_getLsbD w k hj, decodeBytes_wordToLanes, fun off _ h => decodeBytes_of_length_ne off h⟩

/-! ### Every operation and every register write answers a next state -/

theorem runCommand_next (i : Instr) (rd : Reg) (own : Snap → Result) (s : State) :
    ∃ t, runCommand i rd own s = .next t := by
  unfold runCommand
  split <;> exact ⟨_, rfl⟩

theorem execConfig_next (w : Word) (s : State) : ∃ t, execConfig w s = .next t := by
  unfold execConfig
  split <;> exact ⟨_, rfl⟩

theorem exec_next (i : Instr) (s : State) : ∃ t, exec i s = .next t := by
  cases i with
  | config w => exact execConfig_next w s
  | srst v => exact ⟨_, exec_srst v s⟩
  | _ => exact runCommand_next _ _ _ s

theorem writeReg_next (r : RegName) (v : Word) (s : State) : ∃ t, writeReg r v s = .next t := by
  unfold writeReg
  split
  case h_1 i _ => exact exec_next i s
  case h_6 h => exact absurd h (decodeRegWrite_ne_undefinedAccess r v)
  all_goals exact ⟨_, rfl⟩

/-! ### Which accesses reach a register (R62, R63), by the order of names of assumption log 10 -/

section

variable {offset : Int} {s : State}

theorem accessTarget_undefinedWidth {bytes : Nat} (hl : s.env.resetLine = false) (hb : bytes ≠ 4) :
    accessTarget offset bytes s = .error .undefinedWidth := by
  simp [accessTarget, hl, hb]

theorem accessTarget_misaligned (hl : s.env.resetLine = false) (ho : offset % 4 ≠ 0) :
    accessTarget offset 4 s = .error .misaligned := by
  simp [accessTarget, hl, ho]

theorem accessTarget_outsideWindow (hl : s.env.resetLine = false) (ho : offset % 4 = 0)
    (hw : offset < 0 ∨ 0x80 ≤ offset) : accessTarget offset 4 s = .error .outsideWindow := by
  simp [accessTarget, hl, ho, hw]

/-- Every aligned offset of the window is that of some register, which the access reaches. -/
theorem accessTarget_aligned (hl : s.env.resetLine = false) (ho : offset % 4 = 0) (h0 : 0 ≤ offset)
    (hw : offset < 0x80) : ∃ r, accessTarget offset 4 s = .ok r := by
  have hs : (RegName.ofOffset offset.toNat).isSome = true := (ofOffset_isSome _).mpr (by omega)
  obtain ⟨r, hr⟩ := Option.isSome_iff_exists.mp hs
  exact ⟨r, accessTarget_defined hl h0 hr⟩

end

/-! ### Serving an access -/

section

variable {a : Access} {s : State}

theorem serveAccess_refused {e : Refusal} (h : accessTarget a.offset a.bytes s = .error e) :
    serveAccess a s = .refused e := by
  simp only [serveAccess, h]

theorem serveAccess_read {r : RegName} (h : accessTarget a.offset a.bytes s = .ok r) (hk : a.kind = .read) :
    serveAccess a s = .next (s.hostRead r) := by
  simp only [serveAccess, h, hk]

theorem serveAccess_write {r : RegName} (h : accessTarget a.offset a.bytes s = .ok r) (hk : a.kind = .write) :
    serveAccess a s = writeReg r a.data s := by
  simp only [serveAccess, h, hk]

/-- An access that reaches a register is served, whatever it asks. -/
theorem serveAccess_next {r : RegName} (h : accessTarget a.offset a.bytes s = .ok r) :
    ∃ t, serveAccess a s = .next t := by
  cases hk : a.kind with
  | read => exact ⟨_, serveAccess_read h hk⟩
  | write => rw [serveAccess_write h hk]; exact writeReg_next r a.data s

/-! ### The step that serves an access -/

variable {after : Env}

/-- Taking the next event leaves the reset input as it is. -/
theorem State.about.resetLine {e : Event} (h : s.about e after) : after.resetLine = s.env.resetLine :=
  Env.next_resetLine h.2

theorem State.about.step_access (h : s.about (.access a) after) :
    step s = mapNext State.schedule (serveAccess a (s.withEnv after)) :=
  step_event h.1 h.2

theorem State.about.step_refused (h : s.about (.access a) after) {e : Refusal}
    (ha : accessTarget a.offset a.bytes (s.withEnv after) = .error e) : step s = .refused e := by
  rw [h.step_access, serveAccess_refused ha, mapNext]

theorem State.about.step_next (h : s.about (.access a) after) {r : RegName}
    (ha : accessTarget a.offset a.bytes (s.withEnv after) = .ok r) : ∃ t, step s = .next t := by
  obtain ⟨t, ht⟩ := serveAccess_next ha
  exact ⟨t.schedule, by rw [h.step_access, ht, mapNext]⟩

theorem State.about.step_read (h : s.about (.access a) after) (hk : a.kind = .read) {r : RegName}
    (ha : accessTarget a.offset a.bytes (s.withEnv after) = .ok r) :
    step s = .next ((s.withEnv after).hostRead r).schedule := by
  rw [h.step_access, serveAccess_read ha hk, mapNext]

end

/-- Settles O35: the access's target decides the step, and each of the four cases of R62 and R63 fixes the target. -/
theorem onlyUndefinedAccessesAreRefused : Obligations.OnlyUndefinedAccessesAreRefused := by
  rintro s ⟨kind, offset, bytes, data⟩ after h hl
  have hl' : (s.withEnv after).env.resetLine = false := h.resetLine.trans hl
  refine ⟨fun hb => h.step_refused (accessTarget_undefinedWidth hl' hb), ?_, ?_, ?_⟩
  · rintro rfl ho
    exact h.step_refused (accessTarget_misaligned hl' ho)
  · rintro rfl ho hw
    exact h.step_refused (accessTarget_outsideWindow hl' ho (by omega))
  · rintro rfl ho h0 hw
    obtain ⟨r, hr⟩ := accessTarget_aligned hl' ho h0 (by omega)
    exact h.step_next hr

/-! ### Reads -/

/-- A move of what stands beside the block leaves the block as it was. -/
theorem State.EnvMoved.sameBlock {s t : State} (h : s.EnvMoved t) : s.sameBlock t := by
  obtain ⟨e, -, rfl⟩ := h
  rfl

/-- A move of what stands beside the block is invisible to every read. -/
theorem State.EnvMoved.readReg {s t : State} (h : s.EnvMoved t) (q : RegName) : t.readReg q = s.readReg q := by
  obtain ⟨e, -, rfl⟩ := h
  exact s.withEnv_readReg e q

/-- A host read moves only what stands beside the block (R67). -/
theorem State.EnvMoved.hostRead {s t : State} (h : s.EnvMoved t) (r : RegName) : s.EnvMoved (t.hostRead r) := by
  obtain ⟨e, he, rfl⟩ := h
  exact ⟨((s.withEnv e).hostRead r).env, he, rfl⟩

/-- Settles O9: taking the event, the read and the choice of the next turn move only what stands beside the block. -/
theorem readsHaveNoSideEffect : Obligations.ReadsHaveNoSideEffect := by
  intro s off r after hr hl h
  have hl' : (s.withEnv after).env.resetLine = false := h.resetLine.trans hl
  have hm : s.EnvMoved ((s.withEnv after).hostRead r).schedule :=
    ((State.EnvMoved.of_resetLine_eq after h.resetLine).hostRead r).schedule
  refine ⟨_, h.step_read rfl (accessTarget_defined hl' (Int.natCast_nonneg off) hr), ?_, hm.sameBlock, hm.readReg⟩
  simp [State.withEnv_readReg, Env.next_reads h.2]

end Sys2Proof.Machine
end

section
/-! SUPPORT. The encoding statements of spec/30_encoding.md: decoding and encoding undo one another, a row of the opcode
table decides a command, what an illegal word is called, the text of a command, an operation as a register write, and
the runs of an undisturbed host: its ARG writes, a command and its wait loop. -/

namespace Sys2Proof

/-! ### Decoding and encoding -/

/-- The register write that encodes a well-formed operation decodes to it (R98, R99). -/
theorem decodeRegWrite_encode {i : Instr} (h : i.wellFormed = true) :
    decodeRegWrite (encodePort i) (encodeWord i) = .operation i := by
  rw [← decodeWrite_offset]
  cases i with
  | loads rd => exact Laws.RoundTrip.loads rd h
  | loadu rd => exact Laws.RoundTrip.loadu rd h
  | mul rd rs1 rs2 => exact Laws.RoundTrip.mul rd rs1 rs2 h
  | pow rd rs1 => exact Laws.RoundTrip.pow rd rs1 h
  | inv rd rs1 => exact Laws.RoundTrip.inv rd rs1 h
  | sqrt rd rs1 => exact Laws.RoundTrip.sqrt rd rs1 h
  | config w => exact Laws.RoundTrip.config w h
  | srst v => exact Laws.RoundTrip.srst v h

/-- A CMD write is an operation exactly where its word is a command (R90). -/
theorem decodeRegWrite_cmd_iff {w : Word} {i : Instr} :
    decodeRegWrite .cmd w = .operation i ↔ decodeCmd w = .legal i := by
  rw [decodeRegWrite]
  split <;> simp_all

/-- A command is well formed as it stands, and CMD is its register (R90). -/
theorem encodePort_of_decode {w : Word} {i : Instr} (h : decodeCmd w = .legal i) :
    encodePort i = .cmd ∧ i.wellFormed = true := by
  obtain rfl | rfl | rfl | rfl | rfl | rfl := decodeCmd_cases h <;> exact ⟨rfl, rfl⟩

/-- The word of a command decodes to it (R95, R99). -/
theorem decodeCmd_encodeWord {i : Instr} (h : encodePort i = .cmd) : decodeCmd (encodeWord i) = .legal i := by
  have hw : i.wellFormed = true := by
    cases i with
    | config w | srst v => cases h
    | _ => rfl
  rw [← decodeRegWrite_cmd_iff, ← h]
  exact decodeRegWrite_encode hw

/-- A register write that decodes to an operation is the encoding of it (R95, R98). -/
theorem encode_of_decodeRegWrite {r : RegName} {v : Word} {i : Instr} (h : decodeRegWrite r v = .operation i) :
    encodePort i = r ∧ encodeWord i = v ∧ i.wellFormed = true := by
  cases r with
  | cmd =>
    have hd : decodeCmd v = .legal i := decodeRegWrite_cmd_iff.mp h
    obtain ⟨hp, hw⟩ := encodePort_of_decode hd
    exact ⟨hp, encodeWord_of_decode hd, hw⟩
  | modulus => cases h; exact ⟨rfl, rfl, rfl⟩
  | ctrl =>
    cases hv : v.getLsbD 0 with
    | true => simp only [decodeRegWrite, hv] at h; cases h; exact ⟨rfl, rfl, hv⟩
    | false => simp only [decodeRegWrite, hv] at h; cases h
  | _ => cases h

/-- Settles O1: the round trip of each operation, and the converse by the register written. -/
theorem decodeAndEncodeAgree : Obligations.DecodeAndEncodeAgree :=
  ⟨fun i h => (decodeWrite_offset (encodePort i) (encodeWord i)).trans (decodeRegWrite_encode h),
    fun _ _ _ => encode_of_decodeRegWrite⟩

/-! ### The rows of the opcode table -/

@[simp] theorem OpRow.matchesWord_iff {r : OpRow} {w : Word} :
    r.matchesWord w = true ↔ w &&& r.format.mask = r.pattern := by
  simp [OpRow.matchesWord]

/-- A word that matches a row has the row's opcode: every format compares the whole OPC field (R92). -/
theorem OpRow.opcField_of_matchesWord {r : OpRow} {w : Word} (h : r.matchesWord w = true) :
    opcField w = opcField r.pattern := by
  have hm : w &&& r.format.mask = r.pattern := OpRow.matchesWord_iff.mp h
  have hopc : ∀ f : Format, opcField f.mask = BitVec.allOnes 8 := by
    intro f; cases f <;> rfl
  calc opcField w = opcField w &&& opcField r.format.mask := by rw [hopc, BitVec.and_allOnes]
    _ = opcField r.pattern := by rw [← hm]; exact BitVec.extractLsb'_and.symm

/-- A row is found by its opcode (R95). -/
theorem opTable_eq_of_opcField {r q : OpRow} (hr : r ∈ opTable) (hq : q ∈ opTable)
    (h : opcField r.pattern = opcField q.pattern) : r = q :=
  List.inj_on_of_nodup_map (List.pairwise_map.mpr opTable_disjoint) hr hq h

/-- Each command has one row (R95). -/
theorem opTable_eq_of_op : ∀ r ∈ opTable, ∀ q ∈ opTable, r.op = q.op → r = q := by decide

/-- Two opcodes make two commands of one word. -/
theorem Op.toInstr_injective {o p : Op} {w : Word} (h : o.toInstr w = p.toInstr w) : o = p := by
  cases o <;> cases p <;> cases h <;> rfl

/-- A row that the decoder finds is one of the table's and matches the word. -/
theorem find?_opTable_some {r : OpRow} {w : Word} (h : opTable.find? (·.matchesWord w) = some r) :
    r ∈ opTable ∧ r.matchesWord w = true :=
  ⟨List.mem_of_find?_eq_some h, by simpa using List.find?_some h⟩

/-- The decoder finds the one row that a word matches. -/
theorem find?_opTable {r : OpRow} (hr : r ∈ opTable) {w : Word} (h : r.matchesWord w = true) :
    opTable.find? (·.matchesWord w) = some r := by
  have hs : (opTable.find? (·.matchesWord w)).isSome = true := List.find?_isSome.mpr ⟨r, hr, h⟩
  obtain ⟨q, hq⟩ := Option.isSome_iff_exists.mp hs
  obtain ⟨hmem, hm⟩ := find?_opTable_some hq
  have hopc : opcField q.pattern = opcField r.pattern :=
    (OpRow.opcField_of_matchesWord hm).symm.trans (OpRow.opcField_of_matchesWord h)
  rw [hq, opTable_eq_of_opcField hmem hr hopc]

/-- A word is a row's command exactly when it matches the row (R95). -/
theorem decodeCmd_eq_row_iff {r : OpRow} (hr : r ∈ opTable) {w : Word} :
    decodeCmd w = .legal (r.op.toInstr w) ↔ w &&& r.format.mask = r.pattern := by
  rw [← OpRow.matchesWord_iff]
  constructor
  · intro h
    unfold decodeCmd at h
    split at h
    case h_1 q hq =>
      injection h with h
      obtain ⟨hmem, hm⟩ := find?_opTable_some hq
      obtain rfl : q = r := opTable_eq_of_op q hmem r hr (Op.toInstr_injective h)
      exact hm
    case h_2 => cases h
  · intro h
    rw [decodeCmd, find?_opTable hr h]

/-- Settles O3: each line is `decodeCmd_eq_row_iff` at its row. -/
theorem opcodeRowsDecideCommands : Obligations.OpcodeRowsDecideCommands := fun _ =>
  ⟨decodeCmd_eq_row_iff (r := ⟨.loads, .L, 0x00000001⟩) (by decide),
    decodeCmd_eq_row_iff (r := ⟨.loadu, .L, 0x00000002⟩) (by decide),
    decodeCmd_eq_row_iff (r := ⟨.mul, .B, 0x00000010⟩) (by decide),
    decodeCmd_eq_row_iff (r := ⟨.pow, .U, 0x00000020⟩) (by decide),
    decodeCmd_eq_row_iff (r := ⟨.inv, .U, 0x00000030⟩) (by decide),
    decodeCmd_eq_row_iff (r := ⟨.sqrt, .U, 0x00000040⟩) (by decide)⟩

/-! ### Illegal words -/

/-- A word that matches no row is illegal (R96, R97). -/
theorem decodeCmd_of_no_row {w : Word} (h : ∀ r ∈ opTable, ¬ r.matchesWord w = true) :
    decodeCmd w = .illegal w (illegalCause w) := by
  have hn : opTable.find? (·.matchesWord w) = none := List.find?_eq_none.mpr h
  rw [decodeCmd, hn]

/-- A word whose opcode is in no row is illegal by that name (R97). -/
theorem decodeCmd_unassignedOpcode {w : Word} (h : ∀ r ∈ opTable, opcField w ≠ opcField r.pattern) :
    decodeCmd w = .illegal w .unassignedOpcode := by
  have hcause : illegalCause w = .unassignedOpcode := by
    rw [illegalCause, if_neg (by simpa using h)]
  rw [← hcause]
  exact decodeCmd_of_no_row fun r hr hm => h r hr (OpRow.opcField_of_matchesWord hm)

/-- A word that matches a row has a 0 in each bit the row compares above the OPC field (R96). -/
theorem OpRow.fixedBits_of_matchesWord {r : OpRow} (hr : r ∈ opTable) {w : Word} (h : r.matchesWord w = true) :
    w &&& (r.format.mask &&& 0xFFFFFF00) = 0 := by
  have hm : w &&& r.format.mask = r.pattern := OpRow.matchesWord_iff.mp h
  have hp : ∀ r ∈ opTable, r.pattern &&& 0xFFFFFF00 = 0 := by decide
  rw [← BitVec.and_assoc, hm]
  exact hp r hr

/-- A word with a row's opcode and a 1 in a bit the row fixes to 0 is illegal by that name (R96): no other row has its
opcode. -/
theorem decodeCmd_nonzeroFixedBit {r : OpRow} (hr : r ∈ opTable) {w : Word} (hopc : opcField w = opcField r.pattern)
    (hw : w &&& (r.format.mask &&& 0xFFFFFF00) ≠ 0) : decodeCmd w = .illegal w .nonzeroFixedBit := by
  have hcause : illegalCause w = .nonzeroFixedBit := by
    rw [illegalCause, if_pos]
    exact List.any_eq_true.mpr ⟨r, hr, by simpa using hopc⟩
  rw [← hcause]
  refine decodeCmd_of_no_row fun q hq hm => ?_
  obtain rfl : r = q := opTable_eq_of_opcField hr hq (hopc.symm.trans (OpRow.opcField_of_matchesWord hm))
  exact hw (OpRow.fixedBits_of_matchesWord hr hm)

/-- OPC is the word's lowest byte (R91). -/
theorem opcField_eq_iff {w : Word} {c : BitVec 8} : opcField w = c ↔ w.toNat % 256 = c.toNat := by
  rw [← BitVec.toNat_inj]
  simp [opcField]

/-- Settles O4: the unassigned opcodes by `decodeCmd_unassignedOpcode`, each assigned one by `decodeCmd_nonzeroFixedBit`
at its row. -/
theorem unassignedWordsAreIllegal : Obligations.UnassignedWordsAreIllegal := by
  refine fun w => ⟨fun h => decodeCmd_unassignedOpcode fun r hr hopc => ?_, ?_, ?_, fun h => ?_⟩
  · have hassigned : ∀ q ∈ opTable, (opcField q.pattern).toNat ∈ [0x01, 0x02, 0x10, 0x20, 0x30, 0x40] := by decide
    exact h ⟨_, hassigned r hr, opcField_eq_iff.mp hopc⟩
  · rintro (h | h)
    · exact decodeCmd_nonzeroFixedBit (r := ⟨.loads, .L, 0x00000001⟩) (by decide) (opcField_eq_iff.mpr h)
    · exact decodeCmd_nonzeroFixedBit (r := ⟨.loadu, .L, 0x00000002⟩) (by decide) (opcField_eq_iff.mpr h)
  · rintro (h | h | h)
    · exact decodeCmd_nonzeroFixedBit (r := ⟨.pow, .U, 0x00000020⟩) (by decide) (opcField_eq_iff.mpr h)
    · exact decodeCmd_nonzeroFixedBit (r := ⟨.inv, .U, 0x00000030⟩) (by decide) (opcField_eq_iff.mpr h)
    · exact decodeCmd_nonzeroFixedBit (r := ⟨.sqrt, .U, 0x00000040⟩) (by decide) (opcField_eq_iff.mpr h)
  · exact decodeCmd_nonzeroFixedBit (r := ⟨.mul, .B, 0x00000010⟩) (by decide) (opcField_eq_iff.mpr h)

/-- Settles O2: each word is decoded by evaluation. -/
theorem specWordsDecode : Obligations.SpecWordsDecode := by
  unfold Obligations.SpecWordsDecode
  decide

end Sys2Proof

namespace Sys2Proof.Machine

/-! ### The text of a command (R100) -/

/-- A line is cut at the first place where `c` stands. -/
theorem cutAt_append {c : Char} {before : List Char} (h : c ∉ before) (after : List Char) :
    cutAt (· == c) (before ++ c :: after) = (before, some after) := by
  induction before with
  | nil => simp [cutAt]
  | cons b bs ih =>
    obtain ⟨hb, hbs⟩ := List.ne_and_not_mem_of_not_mem_cons h
    simp [cutAt, hb.symm, ih hbs]

/-- A line that does not hold `c` is not cut. -/
theorem cutAt_of_notMem {c : Char} {line : List Char} (h : c ∉ line) : cutAt (· == c) line = (line, none) := by
  induction line with
  | nil => rfl
  | cons b bs ih =>
    obtain ⟨hb, hbs⟩ := List.ne_and_not_mem_of_not_mem_cons h
    simp [cutAt, hb.symm, ih hbs]

theorem comma_notMem_regText : ∀ r : Reg, ',' ∉ regText r := by decide

theorem parseReg_regText : ∀ r : Reg, parseReg (regText r) = some r := by decide

/-- A space before an operand is skipped (assumption log 12). -/
theorem parseReg_space (cs : List Char) : parseReg (' ' :: cs) = parseReg cs := by
  simp [parseReg]

/-- A space before the operands is skipped (assumption log 12). -/
theorem parseOperands_space (fuel : Nat) (cs : List Char) : parseOperands fuel (' ' :: cs) = parseOperands fuel cs := by
  cases fuel with
  | zero => rfl
  | succ n =>
    have hcut : cutAt (· == ',') (' ' :: cs) = (' ' :: (cutAt (· == ',') cs).1, (cutAt (· == ',') cs).2) := rfl
    rw [parseOperands, parseOperands, hcut]
    obtain ⟨one, _ | more⟩ := cutAt (· == ',') cs <;> simp only [parseReg_space]

/-- The text of one or more registers is parsed as these registers. -/
theorem parseOperands_operandText {rs : List Reg} (hne : rs ≠ []) {fuel : Nat} (hf : rs.length ≤ fuel) :
    parseOperands fuel (operandText rs) = some rs := by
  induction rs generalizing fuel with
  | nil => exact absurd rfl hne
  | cons r rs ih =>
    obtain ⟨n, rfl⟩ : ∃ n, fuel = n + 1 := Nat.exists_eq_succ_of_ne_zero (by simp at hf; omega)
    cases rs with
    | nil =>
      rw [operandText, parseOperands, cutAt_of_notMem (comma_notMem_regText r)]
      simp only [parseReg_regText, Option.map_some]
    | cons q qs =>
      have htext : operandText (r :: q :: qs) = regText r ++ ',' :: ' ' :: operandText (q :: qs) := by
        simp [operandText]
      have hrest : parseOperands n (operandText (q :: qs)) = some (q :: qs) := ih nofun (by simpa using hf)
      rw [htext, parseOperands, cutAt_append (comma_notMem_regText r)]
      simp only [parseReg_regText, parseOperands_space, hrest]

/-- The mnemonic of a command and its registers, the destination first; a register write has none (R98, R100). -/
def spelling : Instr → Option (String × List Reg)
  | .loads rd => some ("LOADS", [rd])
  | .loadu rd => some ("LOADU", [rd])
  | .mul rd rs1 rs2 => some ("MUL", [rd, rs1, rs2])
  | .pow rd rs1 => some ("POW", [rd, rs1])
  | .inv rd rs1 => some ("INV", [rd, rs1])
  | .sqrt rd rs1 => some ("SQRT", [rd, rs1])
  | .config _ | .srst _ => none

/-- The text of a command is its mnemonic, a space and its registers. -/
theorem asmText_eq_spelling (i : Instr) :
    asmText i = (spelling i).map fun p => p.1.toList ++ ' ' :: operandText p.2 := by
  cases i <;> simp [asmText, spelling]

/-- A mnemonic holds no space, and one to three registers follow it. -/
theorem spelling_bounds {i : Instr} {mnemonic : String} {rs : List Reg} (h : spelling i = some (mnemonic, rs)) :
    ' ' ∉ mnemonic.toList ∧ rs ≠ [] ∧ rs.length ≤ 3 := by
  cases i <;> cases h <;> exact ⟨by decide, nofun, by simp⟩

/-- The assembler reads a command from its mnemonic and its registers. -/
theorem assemble_spelling {i : Instr} {mnemonic : String} {rs : List Reg} (h : spelling i = some (mnemonic, rs)) :
    assemble (mnemonic.toList ++ ' ' :: operandText rs) = some i := by
  obtain ⟨hspace, hne, hlen⟩ := spelling_bounds h
  rw [assemble, cutAt_append hspace]
  simp only [parseOperands_operandText hne (Nat.le_succ_of_le hlen), String.ofList_toList]
  cases i <;> cases h <;> rfl

/-- Settles O5: a text is a command's `spelling`, and the assembler reads it back. -/
theorem assemblyTextGivesCommand : Obligations.AssemblyTextGivesCommand := by
  refine ⟨fun i text h => ?_, fun i => ?_⟩
  · rw [asmText_eq_spelling, Option.map_eq_some_iff] at h
    obtain ⟨⟨mnemonic, rs⟩, hs, rfl⟩ := h
    exact assemble_spelling hs
  · cases i <;> simp [asmText, encodePort]

/-! ### Operations as register writes (R90, R98) -/

/-- A register write that decodes to an operation is that operation's meaning (R68). -/
theorem writeReg_operation {r : RegName} {v : Word} {i : Instr} (h : decodeRegWrite r v = .operation i) (s : State) :
    writeReg r v s = exec i s := by
  simp only [writeReg, h]

/-- Settles O16: the encoded write decodes to the operation (`decodeRegWrite_encode`), and every operation answers a
next state. -/
theorem operationsIssueAsRegisterWrites : Obligations.OperationsIssueAsRegisterWrites :=
  fun i s hi _ => ⟨(writeReg_operation (decodeRegWrite_encode hi) s).symm, exec_next i s⟩

/-- On the host's turn every CMD write is `writeCmd`, whatever the word (R121). -/
theorem writeReg_cmd (w : Word) {s : State} (ht : s.env.turn = .host) : writeReg .cmd w s = .next (s.writeCmd w) := by
  cases hd : decodeCmd w with
  | legal i =>
    obtain ⟨own, ho⟩ := ownOutcome_of_decode hd
    rw [writeReg_operation (decodeRegWrite_cmd_iff.mpr hd), exec_command ho, runCommand_host _ _ _ ht,
      encodeWord_of_decode hd]
  | illegal v why =>
    obtain rfl : v = w := decodeCmd_illegal hd
    simp only [writeReg, decodeRegWrite, hd]

/-- An illegal word completes with IllegalCommand, before the common checks (R97, R265). -/
theorem completeCommandWord_illegal {snap : Snap} (h : ∀ i, decodeCmd snap.cmd ≠ .legal i) (s : State) :
    completeCommandWord snap s = .next (s.raiseError .illegalCommand) := by
  unfold completeCommandWord
  split
  case h_1 i hi => exact absurd hi (h i)
  case h_2 => rfl

/-- Settles O28: the step is the completion of the word in flight (`step_engine`), which is illegal. -/
theorem illegalWordCompletesWithCode7 : Obligations.IllegalWordCompletesWithCode7 := by
  rintro s snap ⟨ht, hp⟩ h
  rw [step_engine ht hp, completeOperation, completeCommandWord_illegal h]
  rfl

/-! ### The wait loop (R101, R302) -/

/-- The next state of one pass of the wait loop. -/
def State.polled (s : State) : State :=
  (s.hostRead .status).withEvents (if s.busy then .poll :: s.env.events else s.env.events)

/-- A pass of the wait loop is a STATUS read, defined while the reset input is released. -/
theorem servePoll_next {s : State} (h : s.env.resetLine = false) : servePoll s = .next s.polled := by
  have ha : accessTarget 0x08 4 s = .ok .status := accessTarget_defined h (by decide) rfl
  simp only [servePoll, ha, State.polled]

/-- A pass of the wait loop moves only what stands beside the block. -/
theorem State.envMoved_polled (s : State) : s.EnvMoved s.polled := .of_resetLine_eq s.polled.env rfl

/-- The step that serves a poll. -/
theorem State.about.step_poll {s : State} {after : Env} (h : s.about .poll after) (hl : s.env.resetLine = false) :
    step s = .next (s.withEnv after).polled.schedule := by
  have hl' : (s.withEnv after).env.resetLine = false := h.resetLine.trans hl
  rw [step_event h.1 h.2, serveEvent, servePoll_next hl', mapNext]

/-- Two moves of what stands beside the block are one. -/
theorem State.EnvMoved.trans {s t u : State} (h : s.EnvMoved t) (h' : t.EnvMoved u) : s.EnvMoved u := by
  obtain ⟨e, he, rfl⟩ := h
  obtain ⟨e', he', rfl⟩ := h'
  exact ⟨e', fun hl => he (he' hl), rfl⟩

/-- Settles O37: the step is one pass of the loop, and bit 0 of STATUS is BUSY. -/
theorem pollWaitsForBusyClear : Obligations.PollWaitsForBusyClear := by
  intro s after h hl
  have hbusy : s.status.getLsbD 0 = s.busy := status_getLsbD s 0
  have hm : s.EnvMoved (s.withEnv after).polled.schedule :=
    ((State.EnvMoved.of_resetLine_eq after h.resetLine).trans (State.envMoved_polled _)).schedule
  refine ⟨_, h.step_poll hl, hm.sameBlock, ?_, fun hb => ?_, fun hb => ?_⟩
  · simp [State.polled, State.readReg, Env.next_reads h.2]
  · simp [State.polled, hbusy.symm.trans hb]
  · simp [State.polled, hbusy.symm.trans hb]

/-! ### Runs -/

theorem Reaches.trans {s t u : State} (h : Reaches s t) (h' : Reaches t u) : Reaches s u := by
  induction h' with
  | here => exact h
  | later _ hst ih => exact .later ih hst

theorem Reaches.of_step {s t : State} (h : step s = .next t) : Reaches s t := .later (.here s) h

/-- A run of n steps and one step more. -/
theorem runSteps_succ {n : Nat} {s t u : State} (h : runSteps n s = .next t) (hst : step t = .next u) :
    runSteps (n + 1) s = .next u := by
  induction n generalizing s with
  | zero => cases h; simp only [runSteps, hst]
  | succ n ih =>
    rw [runSteps] at h ⊢
    cases hs : step s with
    | next s' => rw [hs] at h; exact ih h
    | fault r => rw [hs] at h; cases h
    | refused r => rw [hs] at h; cases h

/-- A state that can be reached is the end of a run of some number of steps. -/
theorem Reaches.exists_runSteps {s t : State} (h : Reaches s t) : ∃ n, runSteps n s = .next t := by
  induction h with
  | here => exact ⟨0, rfl⟩
  | later _ hst ih =>
    obtain ⟨n, hn⟩ := ih
    exact ⟨n + 1, runSteps_succ hn hst⟩

/-! ### Who moves next (R73, R129) -/

/-- With nothing in flight the outside world moves next (R129). -/
theorem schedule_quiescent {s : State} (hp : s.pending = none) :
    s.schedule = s.withEnv { s.env with turn := .host } := by
  unfold State.schedule
  split <;> simp_all [State.withEnv]

/-- An operation whose delay is spent completes next (R73). -/
theorem schedule_spent {s : State} {op : Operation} (hp : s.pending = some op) (hd : s.env.delay = 0) :
    s.schedule = s.withEnv { s.env with turn := .engine } := by
  unfold State.schedule
  split <;> simp_all [State.withEnv]

/-- A host that goes on moves next while a delay is left (assumption log 2). -/
theorem schedule_waiting {s : State} {op : Operation} (hp : s.pending = some op) {e : Event} {es : List Event}
    (he : s.env.events = e :: es) {d : Nat} (hd : s.env.delay = d + 1) :
    s.schedule = s.withEnv { s.env with turn := .host, delay := d } := by
  have hq : s.env.quiet = false := by simp [Env.quiet, he]
  unfold State.schedule
  split <;> simp_all [State.withEnv]

/-! ### A host that nothing else disturbs -/

/-- The block of `s` is that of `b`, the next step is `a`'s, and the host's actions `es` are all that is to come. -/
structure State.Stands (b : State) (a : Agent) (es : List Event) (s : State) : Prop where
  block     : s = b.withEnv s.env
  turn      : s.env.turn = a
  events    : s.env.events = es
  arrivals  : s.env.arrivals = []
  resetLine : s.env.resetLine = false

section

variable {b s : State} {a : Agent} {es : List Event}

theorem State.Stands.pending (h : b.Stands a es s) : s.pending = b.pending := by rw [h.block, State.withEnv_pending]

theorem State.Stands.busy (h : b.Stands a es s) : s.busy = b.busy := by rw [h.block, State.withEnv_busy]

theorem State.Stands.about {e : Event} (h : b.Stands .host (e :: es) s) : s.about e { s.env with events := es } :=
  ⟨h.turn, Env.next_alone h.events h.arrivals⟩

/-- What stands beside the block moves: the turn and the host's actions, with nothing else to come. -/
theorem State.Stands.withEnv (h : b.Stands a es s) {e : Env} {a' : Agent} {es' : List Event} (ht : e.turn = a')
    (he : e.events = es') (ha : e.arrivals = s.env.arrivals) (hl : e.resetLine = s.env.resetLine) :
    b.Stands a' es' (s.withEnv e) :=
  ⟨by rw [h.block]; rfl, ht, he, ha.trans h.arrivals, hl.trans h.resetLine⟩

/-- The block moves by an `f` that does not look beside it. -/
theorem State.Stands.map {f : State → State} (hf : ∀ u e, f (u.withEnv e) = (f u).withEnv e) (h : b.Stands a es s) :
    (f b).Stands a es (f s) := by
  have hs : f s = (f b).withEnv s.env := by rw [← hf, ← h.block]
  rw [hs]
  exact ⟨rfl, h.turn, h.events, h.arrivals, h.resetLine⟩

/-- Taking the host's next action. -/
theorem State.Stands.taken {e : Event} (h : b.Stands a (e :: es) s) : b.Stands a es (s.withEvents es) :=
  h.withEnv h.turn rfl rfl rfl

/-- With nothing in flight the host goes on. -/
theorem State.Stands.schedule (h : b.Stands a es s) (hp : b.pending = none) : b.Stands .host es s.schedule := by
  rw [schedule_quiescent (h.pending.trans hp)]
  exact h.withEnv rfl h.events rfl rfl

/-- The step that serves a register write. -/
theorem State.Stands.step_write {off : Nat} {v : Word} (h : b.Stands .host (Event.W off v :: es) s) {r : RegName}
    (hr : RegName.ofOffset off = some r) : step s = mapNext State.schedule (writeReg r v (s.withEvents es)) := by
  have ha : accessTarget off 4 (s.withEvents es) = .ok r :=
    accessTarget_defined h.resetLine (Int.natCast_nonneg off) hr
  exact h.about.step_access.trans (congrArg _ (serveAccess_write ha rfl))

/-- A register write whose effect `f` does not look beside the block, on a block with nothing in flight. -/
theorem State.Stands.write_block {off : Nat} {v : Word} (h : b.Stands .host (Event.W off v :: es) s) {r : RegName}
    (hr : RegName.ofOffset off = some r) {f : State → State} (hw : ∀ u, writeReg r v u = .next (f u))
    (hf : ∀ u e, f (u.withEnv e) = (f u).withEnv e) (hp : (f b).pending = none) :
    ∃ t, step s = .next t ∧ (f b).Stands .host es t :=
  ⟨_, by rw [h.step_write hr, hw, mapNext], (h.taken.map hf).schedule hp⟩

/-- `W ARG_LO; W ARG_HI` puts the 64-bit form of k into ARG (R37, R102). -/
theorem State.Stands.loadArg {k : Int} (h : b.Stands .host (loadArg k ++ es) s) (hp : b.pending = none) :
    ∃ t, Reaches s t ∧ State.Stands { b with arg := BitVec.ofInt 64 k } .host es t := by
  obtain ⟨t, hst, ht⟩ := h.write_block (r := .argLo) rfl (fun _ => rfl) (fun _ _ => rfl) hp
  obtain ⟨u, htu, hu⟩ := ht.write_block (r := .argHi) rfl (fun _ => rfl) (fun _ _ => rfl) hp
  have harg : (b.setArgLo (argLo (BitVec.ofInt 64 k))).setArgHi (argHi (BitVec.ofInt 64 k)) =
      { b with arg := BitVec.ofInt 64 k } := by
    simp only [State.setArgHi, State.setArgLo_arg, argLo_append, argHi_append_argLo]
    rfl
  exact ⟨u, (Reaches.of_step hst).trans (.of_step htu), harg ▸ hu⟩

/-! ### A command from its write to the end of its wait loop -/

@[simp] theorem State.completeCommand_busy (rd : Reg) (r : Result) (s : State) :
    (s.completeCommand rd r).busy = false := by
  cases r <;> rfl
@[simp] theorem State.completeCommand_pending (rd : Reg) (r : Result) (s : State) :
    (s.completeCommand rd r).pending = none := by
  cases r <;> rfl

/-- A completion does not look beside the block. -/
theorem completeCommand_withEnv (rd : Reg) (r : Result) (s : State) (e : Env) :
    (s.withEnv e).completeCommand rd r = (s.completeCommand rd r).withEnv e := by
  cases r <;> rfl

/-- The block once the command word `w` is accepted (R122). -/
def State.issued (w : Word) (s : State) : State := { s.accept (.command (s.snapshot w)) with lastcmd := w }

/-- The step that accepts a command. -/
theorem State.Stands.issue {w : Word} (h : b.Stands .host (Event.W 0x18 w :: es) s) (hb : b.busy = false) :
    ∃ u, step s = .next u.schedule ∧ (b.issued w).Stands .host es u := by
  refine ⟨(s.withEvents es).issued w, ?_, ?_⟩
  · rw [h.step_write (r := .cmd) rfl, writeReg_cmd w h.taken.turn, writeCmd_idle w (h.taken.busy.trans hb)]
    rfl
  · rw [h.taken.block]
    exact ⟨rfl, by simpa [State.issued] using h.turn, by simp [State.issued], by simpa [State.issued] using h.arrivals,
      by simpa [State.issued] using h.resetLine⟩

/-- The step that serves a poll. -/
theorem State.Stands.step_poll (h : b.Stands .host (.poll :: es) s) :
    step s = .next (s.withEvents es).polled.schedule :=
  h.about.step_poll h.resetLine

/-- A pass of the wait loop leaves the block, and goes on while BUSY = 1. -/
theorem State.Stands.polled (h : b.Stands a (.poll :: es) s) :
    b.Stands a (if b.busy then .poll :: es else es) (s.withEvents es).polled :=
  h.withEnv h.turn (by rw [h.block]; rfl) rfl rfl

/-- While an operation is in flight the host polls, one turn of the delay at a time, until it is the engine's turn. -/
theorem State.Stands.waits {op : Operation} (hp : b.pending = some op) (hb : b.busy = true)
    (h : b.Stands a (.poll :: es) s) : ∃ t, Reaches s.schedule t ∧ b.Stands .engine (.poll :: es) t := by
  induction hd : s.env.delay generalizing s a with
  | zero =>
    refine ⟨_, .here _, ?_⟩
    rw [schedule_spent (h.pending.trans hp) hd]
    exact h.withEnv rfl h.events rfl rfl
  | succ d ih =>
    have hsched := schedule_waiting (h.pending.trans hp) h.events hd
    have hs : b.Stands .host (.poll :: es) s.schedule := by
      rw [hsched]
      exact h.withEnv rfl h.events rfl rfl
    have hdelay : s.schedule.env.delay = d := by rw [hsched]; rfl
    have hpolled : b.Stands .host (.poll :: es) (s.schedule.withEvents es).polled := by simpa [hb] using hs.polled
    obtain ⟨t, hr, ht⟩ := ih hpolled hdelay
    exact ⟨t, (Reaches.of_step hs.step_poll).trans hr, ht⟩

/-- The completion step of a command. -/
theorem State.Stands.complete {snap : Snap} (hp : b.pending = some (.command snap)) {i : Instr} {rd : Reg}
    {own : Snap → Result} (hd : decodeCmd snap.cmd = .legal i) (ho : ownOutcome i = some (rd, own))
    (h : b.Stands .engine es s) :
    ∃ t, step s = .next t ∧ (b.completeCommand rd (commonChecks snap own)).Stands .host es t := by
  have hp' : s.pending = some (.command snap) := h.pending.trans hp
  have hstep : step s = .next (s.completeCommand rd (commonChecks snap own)).schedule := by
    simp only [step_engine h.turn hp', completeOperation, completeCommandWord, hd, exec_command ho,
      runCommand_engine _ _ _ h.turn hp', mapNext]
  exact ⟨_, hstep, (h.map (completeCommand_withEnv rd _)).schedule (State.completeCommand_pending rd _ b)⟩

/-- `C cmd` on a block that is not busy: the command is accepted, completes, and the wait loop ends (R101, R122, R126,
R127). -/
theorem State.Stands.command {i : Instr} {rd : Reg} {own : Snap → Result} (ho : ownOutcome i = some (rd, own))
    (h : b.Stands .host (Event.C i ++ es) s) (hb : b.busy = false) :
    ∃ t, Reaches s t ∧
      ((b.issued (encodeWord i)).completeCommand rd (commonChecks (b.snapshot (encodeWord i)) own)).Stands .host es
        t := by
  have hi : encodePort i = .cmd := by
    cases i with
    | config w | srst v => cases ho
    | _ => rfl
  obtain ⟨u, hsu, hu⟩ := h.issue hb
  obtain ⟨v, huv, hv⟩ := hu.waits rfl rfl
  obtain ⟨w, hvw, hw⟩ := hv.complete rfl (decodeCmd_encodeWord hi) ho
  have hlast := hw.polled.schedule (State.completeCommand_pending rd _ _)
  rw [State.completeCommand_busy] at hlast
  exact ⟨_, (((Reaches.of_step hsu).trans huv).trans (.of_step hvw)).trans (.of_step hw.step_poll), hlast⟩

end

/-- The signed argument that the halves of k put into ARG is k itself (R8, R102). -/
theorem sint64_ofInt {k : Int} (h : inSigned64 k = true) : sint64 (BitVec.ofInt 64 k) = k := by
  obtain ⟨hlo, hhi⟩ : -2 ^ 63 ≤ k ∧ k < 2 ^ 63 := by simpa [inSigned64] using h
  rw [sint64_eq_toInt, BitVec.toInt_ofInt_eq_self (by decide) hlo hhi]

/-- Settles O38: the two ARG writes by `State.Stands.loadArg`, LOADS by `State.Stands.command`; its result is mod(k, m),
which a register holds. -/
theorem loadImmediateExpansionLoadsResidue : Obligations.LoadImmediateExpansionLoadsResidue := by
  intro s rd k hinv hcfg hp ht hl he ha hk
  have hbusy : s.busy = false := by rw [hinv.busy_pending, hp]; rfl
  obtain ⟨hm2, hm31⟩ := legalModulus_iff.mp (hinv.modulus_legal hcfg)
  have hm0 : s.modulus ≠ 0 := by rintro h0; simp [h0] at hm2
  have hs : s.Stands .host (loadArg k ++ (Event.C (.loads rd) ++ [])) s := ⟨rfl, ht, he, ha, hl⟩
  obtain ⟨u, hsu, hu⟩ := hs.loadArg hp
  obtain ⟨t, hut, h⟩ := hu.command (i := .loads rd) rfl hbusy
  have hres : ∀ w : Word, loadsResult (State.snapshot w { s with arg := BitVec.ofInt 64 k }) =
      .finish (modInt k s.modulus.toNat) := by
    intro w; simp only [loadsResult, State.snapshot, sint64_ofInt (k := k) hk]
  rw [commonChecks_configured _ hm0, hres] at h
  have hreg : ∀ j, t.reg j = if j = rd then BitVec.ofNat 32 (modInt k s.modulus.toNat) else s.reg j := by
    intro j
    rw [h.block, State.withEnv_reg]
    exact State.reg_finishCommand _ rd j _
  obtain ⟨n, hn⟩ := (hsu.trans hut).exists_runSteps
  refine ⟨n, t, hn, ?_, by rw [h.block]; rfl, by rw [h.block]; rfl, ?_, fun j hj => by rw [hreg, if_neg hj]⟩
  · have hq : t.pending = none := h.pending
    simp [State.runEnded, State.quiescent, hq, h.events]
  · have hlt : modInt k s.modulus.toNat < s.modulus.toNat := modInt_lt k (by omega)
    rw [hreg, if_pos rfl, BitVec.toNat_ofNat, Nat.mod_eq_of_lt (by omega), modInt_cast k (by omega)]

end Sys2Proof.Machine
end

section
/-! SUPPORT. The command-protocol statements of spec/40_command_protocol.md: writes accepted and dropped, the outcome of
a command as a function of its snapshot, how an operation ends, and what a step runs. -/

namespace Sys2Proof.Machine

/-- Settles O36, by `exec_next`. -/
theorem everyOperationAnswersNextState : Obligations.EveryOperationAnswersNextState := exec_next

/-! ### Writes accepted and dropped (R121, R122, R130) -/

/-- Settles O13: the write is `writeCmd` (`writeReg_cmd`), which issues the command while BUSY = 0. -/
theorem commandWriteIsAccepted : Obligations.CommandWriteIsAccepted := by
  intro s w ht hb
  have hw : writeReg .cmd w s = .next (s.issued w) := by
    rw [writeReg_cmd w ht, writeCmd_idle w hb, State.issued]
  exact ⟨s.issued w, hw, rfl, Env.drawLatency_turn _ _, Env.drawLatency_events _ _, Env.drawLatency_reads _ _,
    fun _ => ⟨rfl, rfl⟩, fun _ => rfl⟩

/-- On the host's turn a MODULUS write is `writeModulus` (R141). -/
theorem writeReg_modulus (w : Word) {s : State} (ht : s.env.turn = .host) :
    writeReg .modulus w s = .next (s.writeModulus w) := by
  rw [writeReg_operation (i := .config w) rfl, exec_config_host w ht]

theorem State.not_configurable_iff {s : State} :
    s.configurable = false ↔ s.busy = true ∨ s.cfgValid = true ∨ s.cfgFault = true := by
  rw [← Bool.not_eq_true, State.configurable_iff]
  simp [imp_iff_not_or]

/-- Settles O15: a CMD write is dropped by `writeCmd_busy`, a MODULUS write by `writeModulus_dropped`. -/
theorem droppedWriteChangesOnlyDropped : Obligations.DroppedWriteChangesOnlyDropped := by
  refine fun s w ht => ⟨fun hb => ?_, fun hc => ?_⟩
  · rw [writeReg_cmd w ht, writeCmd_busy w hb, State.drop]
  · rw [writeReg_modulus w ht, writeModulus_dropped w (State.not_configurable_iff.mpr hc), State.drop]

/-! ### The outcome of a command (R124 to R128) -/

/-- The outcome of a command: the latched word is decoded, an illegal one raises IllegalCommand, a legal one passes the
common checks to its own outcome. `completeOperation_command` ties it to the completion step. (No decoded word is a
register-write operation, so the first argument of `elim` is never the answer to a legal one.) -/
def Snap.outcome (snap : Snap) : Result :=
  match decodeCmd snap.cmd with
  | .legal i => (ownOutcome i).elim (.raise .illegalCommand) fun p => commonChecks snap p.2
  | .illegal _ _ => .raise .illegalCommand

section

variable {snap : Snap} {i : Instr}

theorem Snap.outcome_legal (hd : decodeCmd snap.cmd = .legal i) {rd : Reg} {own : Snap → Result}
    (ho : ownOutcome i = some (rd, own)) : snap.outcome = commonChecks snap own := by
  simp only [Snap.outcome, hd, ho, Option.elim_some]

theorem Snap.outcome_illegal {w : Word} {why : IllegalCause} (hd : decodeCmd snap.cmd = .illegal w why) :
    snap.outcome = .raise .illegalCommand := by
  simp only [Snap.outcome, hd]

/-- A legal command accepted while unconfigured fails with code 1 after a configuration fault, else with code 6 (R125). -/
theorem Snap.outcome_unconfigured (hd : decodeCmd snap.cmd = .legal i) (hm : snap.m = 0) :
    snap.outcome = .raise (if snap.F then .invalidModulusConfig else .notConfigured) := by
  obtain ⟨own, ho⟩ := ownOutcome_of_decode hd
  rw [Snap.outcome_legal hd ho, commonChecks_unconfigured own hm]

/-- A command that finishes has a result below the latched modulus (R126). -/
theorem Snap.outcome_finish_lt (ha : snap.m ≠ 0 → snap.a.toNat < snap.m.toNat) {v : Nat}
    (hv : snap.outcome = .finish v) : v < snap.m.toNat := by
  cases hd : decodeCmd snap.cmd with
  | legal i =>
    obtain ⟨own, ho⟩ := ownOutcome_of_decode hd
    exact commonChecks_finish_lt ho ha (Snap.outcome_legal hd ho ▸ hv)
  | illegal w why =>
    rw [Snap.outcome_illegal hd] at hv
    cases hv

/-- On the engine's turn the meaning of a command completes the command in flight (R124). -/
theorem exec_completing {s : State} (h : s.completing snap) {rd : Reg} {own : Snap → Result}
    (ho : ownOutcome i = some (rd, own)) : exec i s = .next (s.completeCommand rd (commonChecks snap own)) := by
  rw [exec_command ho, runCommand_engine i rd own h.1 h.2]

/-- The completion of a legal command is its meaning (R124). -/
theorem completeOperation_legal (hd : decodeCmd snap.cmd = .legal i) (s : State) :
    completeOperation (.command snap) s = exec i s := by
  simp only [completeOperation, completeCommandWord, hd]

/-- The completion step of a command gives its outcome to the register its RD field names (R126, R127). -/
theorem completeOperation_command {s : State} (h : s.completing snap) :
    completeOperation (.command snap) s = .next (s.completeCommand (rdField snap.cmd) snap.outcome) := by
  cases hd : decodeCmd snap.cmd with
  | legal i =>
    obtain ⟨own, ho⟩ := ownOutcome_of_decode hd
    rw [completeOperation_legal hd, exec_completing h ho, Snap.outcome_legal hd ho]
  | illegal w why =>
    rw [completeOperation, completeCommandWord_illegal (by simp [hd]), Snap.outcome_illegal hd, State.completeCommand]

end

theorem completeCommand_finish (rd : Reg) (v : Nat) (s : State) :
    s.completeCommand rd (.finish v) = s.succeeded rd v := rfl

theorem completeCommand_raise (rd : Reg) (e : ErrorCode) (s : State) :
    s.completeCommand rd (.raise e) = s.failed e.code := rfl

/-- No error has code 0, the code of success (R261). -/
theorem ErrorCode.code_ne_zero (e : ErrorCode) : e.code ≠ 0 := by
  cases e <;> decide

/-- Settles O27: the outcome of an illegal word and of a legal one under m = 0. -/
theorem unconfiguredCommandFails : Obligations.UnconfiguredCommandFails := by
  intro s snap h hm
  have hc := completeOperation_command h
  refine ⟨fun ⟨why, hd⟩ => ?_, fun i hd => ⟨?_, completeOperation_legal hd s⟩⟩
  · rw [hc, Snap.outcome_illegal hd]
    rfl
  · rw [← completeOperation_legal hd, hc, Snap.outcome_unconfigured hd hm, completeCommand_raise]
    cases snap.F <;> rfl

/-- Settles O29: a finished outcome is below the modulus (`Snap.outcome_finish_lt`), a raised one has a code that is
not 0. -/
theorem commandCompletionWritesOneRegisterOrNone : Obligations.CommandCompletionWritesOneRegisterOrNone := by
  intro s snap h hcfg
  have ha : snap.m ≠ 0 → snap.a.toNat < snap.m.toNat := fun hm => by
    obtain ⟨-, -, ha, -, -⟩ := hcfg hm
    exact ha
  rw [completeOperation_command h]
  cases ho : snap.outcome with
  | finish v => exact .inl ⟨v, Snap.outcome_finish_lt ha ho, by rw [completeCommand_finish]⟩
  | raise e => exact .inr ⟨e, by rw [completeCommand_raise], e.code_ne_zero⟩

/-- Settles O30: both states complete with `Snap.outcome`, which no state enters. -/
theorem outcomeDependsOnSnapshotOnly : Obligations.OutcomeDependsOnSnapshotOnly := by
  intro s s' snap h h'
  rw [completeOperation_command h, completeOperation_command h']
  cases snap.outcome with
  | finish v => exact .inl ⟨v, by rw [completeCommand_finish], by rw [completeCommand_finish]⟩
  | raise e => exact .inr ⟨e.code, e.code_ne_zero, by rw [completeCommand_raise], by rw [completeCommand_raise]⟩

/-! ### How an operation ends (R129) -/

@[simp] theorem State.completeCommand_done (rd : Reg) (r : Result) (s : State) :
    (s.completeCommand rd r).done = true := by
  cases r <;> rfl
@[simp] theorem State.completeConfig_pending (w : Word) (prime : Bool) (s : State) :
    (s.completeConfig w prime).pending = none := by
  unfold State.completeConfig; split <;> rfl
@[simp] theorem State.completeConfig_busy (w : Word) (prime : Bool) (s : State) :
    (s.completeConfig w prime).busy = false := by
  unfold State.completeConfig; split <;> rfl
@[simp] theorem State.completeConfig_done (w : Word) (prime : Bool) (s : State) :
    (s.completeConfig w prime).done = true := by
  unfold State.completeConfig; split <;> rfl

/-- A completion step leaves nothing in flight, BUSY = 0 and DONE = 1 (R126, R127, R143). -/
theorem completeOperation_ends {s u : State} {op : Operation} (ht : s.env.turn = .engine) (hp : s.pending = some op)
    (h : completeOperation op s = .next u) : u.pending = none ∧ u.busy = false ∧ u.done = true := by
  obtain ⟨w, -, rfl⟩ | ⟨snap, i, own, -, -, -, rfl⟩ | ⟨snap, why, -, -, rfl⟩ := completeOperation_cases ht hp h <;> simp

/-- While BUSY = 1 the outside world leaves the operation in flight as it is, or resets the block: no write is
accepted. -/
theorem HostEffect.pending_or_isReset {s u : State} (h : HostEffect s u) (ht : s.env.turn = .host)
    (hb : s.busy = true) : u.pending = s.pending ∨ u.isReset = true := by
  have hne : s.env.turn ≠ .engine := by simp [ht]
  obtain ⟨b, hblock, e, -, rfl⟩ := h.effect
  rw [State.withEnv_pending, State.isReset_withEnv]
  cases hblock with
  | kept => exact .inl rfl
  | reset e => exact .inr (by simp)
  | argWritten a hl => exact .inl rfl
  | dropped hl hc => exact .inl rfl
  | commandAccepted w hl hidle => simp [hb] at hidle
  | configAccepted w hl hc =>
    obtain ⟨hidle, -, -⟩ := State.configurable_iff.mp hc
    simp [hb] at hidle
  | configCompleted w hturn hp => exact absurd hturn hne
  | commandFinished snap i own v hc ho hv => exact absurd hc.1 hne
  | commandFailed snap err hc => exact absurd hc.1 hne

/-- Being reset does not look at who moves next. -/
@[simp] theorem State.isReset_schedule (s : State) : s.schedule.isReset = s.isReset := by
  obtain ⟨e, -, he⟩ := (State.EnvMoved.of_resetLine_eq (u := s) s.env rfl).schedule
  exact (congrArg State.isReset he).trans (State.isReset_withEnv s e)

/-- Settles O31: the engine's step by `completeOperation_ends`, the outside world's by `HostEffect.pending_or_isReset`. -/
theorem operationEndsByCompletionOrReset : Obligations.OperationEndsByCompletionOrReset := by
  intro s t op h hp hst
  have hb : s.busy = true := by rw [h.busy_pending, hp]; rfl
  obtain ⟨op', u, ht, hp', hu, rfl⟩ | ⟨u, ht, hu, rfl⟩ := step_cases hst
  · obtain ⟨hpu, hbu, hdu⟩ := completeOperation_ends ht hp' hu
    exact .inr (.inl ⟨ht, by simpa using hpu, by simpa using hbu, by simpa using hdu⟩)
  · have ht' : s.env.turn = .host := ht.resolve_right (by simp [hp])
    obtain hkept | hreset := hu.pending_or_isReset ht' hb
    · exact .inl (by simpa using hkept.trans hp)
    · exact .inr (.inr ⟨ht', by simpa using hreset⟩)

/-! ### MUL in place (R93, R123) -/

/-- The snapshot of MUL's word latches the two registers that the instruction names (R122). -/
theorem snapshot_mul (s : State) (rd rs1 rs2 : Reg) :
    (s.snapshot (encodeWord (.mul rd rs1 rs2))).a = s.reg rs1 ∧
      (s.snapshot (encodeWord (.mul rd rs1 rs2))).b = s.reg rs2 := by
  obtain ⟨-, h1, h2⟩ := fields_commandWord (opc := 0x10) (by decide) rd rs1 rs2
  exact ⟨congrArg s.reg h1, congrArg s.reg h2⟩

/-- Settles O33: the completion multiplies the latched sources (`snapshot_mul`), and a register holds a residue. -/
theorem mulReadsSourcesBeforeItWrites : Obligations.MulReadsSourcesBeforeItWrites := by
  intro s rd rs1 rs2 arg h hcfg hb ht
  obtain ⟨hm2, -⟩ := legalModulus_iff.mp (h.modulus_legal hcfg)
  have hm0 : s.modulus ≠ 0 := by rintro h0; simp [h0] at hm2
  obtain ⟨ha, hbs⟩ := snapshot_mul s rd rs1 rs2
  have hissue : exec (.mul rd rs1 rs2) s = .next (s.issued (encodeWord (.mul rd rs1 rs2))) := by
    rw [exec_command rfl, runCommand_host _ _ _ ht, writeCmd_idle _ hb, State.issued]
  have hres : commonChecks (s.snapshot (encodeWord (.mul rd rs1 rs2))) mulResult =
      .finish ((s.reg rs1).toNat * (s.reg rs2).toNat % s.modulus.toNat) := by
    rw [commonChecks_configured mulResult hm0, mulResult, ha, hbs]
    rfl
  refine ⟨_, _, hissue, rfl, exec_completing (snap := s.snapshot (encodeWord (.mul rd rs1 rs2))) ⟨rfl, rfl⟩ rfl, ?_,
    fun j hj => ?_⟩
  · have hlt : (s.reg rs1).toNat * (s.reg rs2).toNat % s.modulus.toNat < 2 ^ 32 :=
      (Nat.mod_lt _ (by omega)).trans s.modulus.isLt
    rw [hres, State.completeCommand, State.reg_finishCommand, if_pos rfl, BitVec.toNat_ofNat, Nat.mod_eq_of_lt hlt]
  · rw [hres, State.completeCommand, State.reg_finishCommand, if_neg hj]
    rfl

/-! ### What a step runs (R124, R132) -/

/-- A register write is an operation by the register at its offset (R68). -/
theorem exists_ofOffset_of_decodeWrite {off : Nat} {v : Word} {i : Instr} (h : decodeWrite ⟨off, v⟩ = .operation i) :
    ∃ r, RegName.ofOffset off = some r ∧ decodeRegWrite r v = .operation i := by
  unfold decodeWrite at h
  split at h
  case h_1 r hr => exact ⟨r, hr, h⟩
  case h_2 => cases h

/-- The step that serves a register write which is an operation. -/
theorem State.about.step_operation {s : State} {off : Nat} {v : Word} {after : Env} {i : Instr}
    (h : s.about (Event.W off v) after) (hl : s.env.resetLine = false) (hd : decodeWrite ⟨off, v⟩ = .operation i) :
    step s = mapNext State.schedule (exec i (s.withEnv after)) := by
  obtain ⟨r, hr, hi⟩ := exists_ofOffset_of_decodeWrite hd
  have hl' : (s.withEnv after).env.resetLine = false := h.resetLine.trans hl
  have ha : accessTarget off 4 (s.withEnv after) = .ok r := accessTarget_defined hl' (Int.natCast_nonneg off) hr
  rw [h.step_access, serveAccess_write ha rfl, writeReg_operation hi]

/-- A table word's register write is the next event (assumption log 4). -/
theorem State.about_withFetchWord (s : State) (nbits w : Nat) :
    (s.withFetchWord nbits w).about (Event.W (tableWrite nbits w).off (tableWrite nbits w).data)
      { s.env with turn := .host, resetLine := false } :=
  ⟨rfl, Env.next_arrival rfl⟩

/-- A table word is an operation as its register write is one (assumption log 4). -/
theorem decodeWrite_of_decodeTableWord {nbits w : Nat} {i : Instr} (h : decodeTableWord nbits w = some i) :
    decodeWrite (tableWrite nbits w) = .operation i := by
  unfold decodeTableWord at h
  split at h
  case h_1 j hj => cases h; exact hj
  case h_2 => cases h

/-- Settles O34: a host write by `State.about.step_operation`, the operation in flight by `step_engine`, a table word as
the host write that `withFetchWord` makes due. -/
theorem stepRunsDecodedOperation : Obligations.StepRunsDecodedOperation := by
  refine ⟨fun s off v after i => State.about.step_operation, ?_, ?_, fun s nbits w i hd => ?_⟩
  · rintro s snap i ⟨ht, hp⟩ hd
    rw [step_engine ht hp, completeOperation_legal hd]
  · intro s w ht hp
    rw [step_engine ht hp, completeOperation]
  · exact (s.about_withFetchWord nbits w).step_operation rfl (decodeWrite_of_decodeTableWord hd)

end Sys2Proof.Machine
end

section
/-! SUPPORT. The configuration statements of spec/41_configuration.md: the acceptance and the completion of a
configuration, a configuration fault, and the soft reset. -/

namespace Sys2Proof.Machine

/-! ### Acceptance and completion of a configuration (R141 to R144) -/

/-- Settles O14: on the host's turn CONFIG is `writeModulus` (`exec_config_host`), which accepts on a configurable block
and drops otherwise; the invariant keeps MODULUS at 0 while unconfigured. -/
theorem modulusWriteIsAcceptedOnce : Obligations.ModulusWriteIsAcceptedOnce := by
  intro s w h ht
  rw [exec_config_host w ht, ← State.configurable_iff, Bool.not_eq_true]
  refine ⟨fun hc => ?_, fun hc => by rw [writeModulus_dropped w hc, State.drop]⟩
  obtain ⟨-, hv, -⟩ := State.configurable_iff.mp hc
  exact ⟨s.accept (.config w), by rw [writeModulus_accepted w hc], rfl, h.modulus_unconfigured hv, rfl,
    Env.drawLatency_events _ _, Env.drawLatency_reads _ _⟩

/-- Settles O23: the completion step (`exec_config_engine`) of a legal and of an illegal word, with `isPrime` exact on a
word (`isPrime_iff`). -/
theorem configCompletionSetsModulusOrFault : Obligations.ConfigCompletionSetsModulusOrFault := by
  intro s w v ht hp
  rw [exec_config_engine v w ht hp, ← legalModulus_iff, Bool.not_eq_true]
  refine ⟨fun hw => ⟨isPrime w.toNat, isPrime_iff w.isLt, ?_⟩, fun hw => ?_⟩
  · rw [completeConfig_legal hw, State.flagsCompleted]
  · rw [completeConfig_illegal hw, State.raiseError, ErrorCode.code, State.flagsCompleted]

/-! ### A configuration fault (R145) -/

/-- The register file is what its eight registers read (R22). -/
theorem State.x_eq_of_reg_eq {s t : State} (h : ∀ i, t.reg i = s.reg i) : t.x = s.x :=
  Vector.ext fun i hi => h ⟨i, hi⟩

/-- The completion of a command as a step (R126, R127). -/
theorem State.completing.step {s : State} {snap : Snap} (h : s.completing snap) :
    step s = .next (s.completeCommand (rdField snap.cmd) snap.outcome).schedule := by
  obtain ⟨ht, hp⟩ := h
  rw [step_engine ht hp, completeOperation_command ⟨ht, hp⟩, mapNext]

section

variable {s : State} (h : s.Inv) (hf : s.cfgFault = true)

include h hf

/-- A faulted block is not configured (R34). -/
theorem State.Inv.cfgValid_of_fault : s.cfgValid = false := by
  by_contra hv
  simp [h.not_valid_and_fault (by simpa using hv)] at hf

/-- No configuration is in flight on a faulted block: none is accepted there (R141). -/
theorem State.Inv.pending_ne_config_of_fault (w : Word) : s.pending ≠ some (.config w) := by
  intro hp
  have ha : pendingAgrees s (some (.config w)) := hp ▸ h.pending_agrees
  obtain ⟨-, hnf⟩ := ha
  simp [hnf] at hf

/-- A command in flight on a faulted block has latched the fault and no modulus (R122). -/
theorem State.Inv.snap_of_fault {snap : Snap} (hp : s.pending = some (.command snap)) :
    snap.m = 0 ∧ snap.F = true := by
  have ha : pendingAgrees s (some (.command snap)) := hp ▸ h.pending_agrees
  obtain ⟨-, -, -, hm, -, hF⟩ := ha
  exact ⟨hm.trans (h.modulus_unconfigured (h.cfgValid_of_fault hf)), hF.trans hf⟩

/-- Only a reset ends a configuration fault (R145). -/
theorem State.Inv.fault_of_step {t : State} (hst : step s = .next t) (hr : t.isReset = false) : t.cfgFault = true := by
  obtain ⟨b, hb, e, -, rfl⟩ := step_effect hst
  obtain hc | ⟨-, w, hp⟩ | hreset := hb.sameConfig
  · exact hc.cfgFault.trans hf
  · exact absurd hp (h.pending_ne_config_of_fault hf w)
  · simp [hreset] at hr

end

/-- Settles O46: the next state is faulted too (`State.Inv.fault_of_step`), and a faulted block of the invariant holds
no modulus and reads 0 in every residue register; a command in flight has latched that fault. -/
theorem configFaultIsFatalUntilReset : Obligations.ConfigFaultIsFatalUntilReset := by
  intro s t h hf hst hr
  have hft : t.cfgFault = true := h.fault_of_step hf hst hr
  have hti : t.Inv := step_inv h hst
  have hvt : t.cfgValid = false := hti.cfgValid_of_fault hft
  have hreg : ∀ i, t.reg i = s.reg i := fun i =>
    (hti.residue_unconfigured hvt i).trans (h.residue_unconfigured (h.cfgValid_of_fault hf) i).symm
  refine ⟨hft, hti.modulus_unconfigured hvt, hvt, State.x_eq_of_reg_eq hreg, fun snap hc => ?_⟩
  obtain ⟨hm, hF⟩ := h.snap_of_fault hf hc.2
  obtain rfl : _ = t := Host.Outcome.next.inj (hc.step.symm.trans hst)
  refine ⟨by simp, ?_⟩
  cases hd : decodeCmd snap.cmd with
  | legal i => simp [Snap.outcome_unconfigured hd hm, hF, State.completeCommand, ErrorCode.code]
  | illegal w why => simp [Snap.outcome_illegal hd, State.completeCommand, ErrorCode.code]

/-! ### Soft reset (R146) -/

/-- Settles O24: SRST is `writeCtrl` (`exec_srst`), and the CTRL write that encodes it is that operation; with bit 0
clear the CTRL write is one of the ignored writes of O10. -/
theorem softResetRestoresResetState : Obligations.SoftResetRestoresResetState := by
  refine fun s v => ⟨fun hv => ⟨?_, ?_⟩, (ignoredWritesChangeNothing s v).2⟩
  · rw [exec_srst, writeCtrl_reset s hv, State.blockReset]
  · exact writeReg_operation (decodeRegWrite_encode (i := .srst v) hv) s

end Sys2Proof.Machine
end

section
/-! SUPPORT. The operand-load statements of spec/42_load.md: LOADS and LOADU complete with the normalised argument. -/

namespace Sys2Proof.Machine

section

variable {s : State} {snap : Snap}

theorem Snap.configured.m_pos (hcfg : snap.configured) : 0 < snap.m.toNat := by
  obtain ⟨hm2, -⟩ := hcfg
  omega

theorem Snap.configured.m_ne_zero (hcfg : snap.configured) : snap.m ≠ 0 := by
  rintro h0
  simpa [h0] using hcfg.m_pos

/-- A command of a configured snapshot whose own outcome finishes succeeds with that value (R124, R126). -/
theorem exec_finishing {i : Instr} {rd : Reg} {own : Snap → Result} {v : Nat} (h : s.completing snap)
    (hcfg : snap.configured) (ho : ownOutcome i = some (rd, own)) (hv : own snap = .finish v) :
    exec i s = .next (s.succeeded rd v) := by
  rw [exec_completing h ho, commonChecks_configured own hcfg.m_ne_zero, hv, completeCommand_finish]

/-- LOADS completes with `mod(sint64(ARG), m)` (R161). -/
theorem exec_loads_completing (rd : Reg) (h : s.completing snap) (hcfg : snap.configured) :
    exec (.loads rd) s = .next (s.succeeded rd (modInt snap.arg.toInt snap.m.toNat)) :=
  exec_finishing h hcfg rfl (by rw [loadsResult, sint64_eq_toInt])

/-- LOADU completes with `mod(uint64(ARG), m)` (R165). -/
theorem exec_loadu_completing (rd : Reg) (h : s.completing snap) (hcfg : snap.configured) :
    exec (.loadu rd) s = .next (s.succeeded rd (modInt snap.arg.toNat snap.m.toNat)) :=
  exec_finishing h hcfg rfl (by rw [loaduResult, uint64])

/-- The signed and the unsigned reading of an argument below a legal modulus agree (R5, R8). -/
theorem Snap.configured.arg_toInt (hcfg : snap.configured) (hlt : snap.arg.toNat < snap.m.toNat) :
    snap.arg.toInt = snap.arg.toNat := by
  obtain ⟨-, hm, -⟩ := hcfg
  exact BitVec.toInt_eq_toNat_of_lt (by omega)

end

/-- Settles O17: the value is `mod(sint64(ARG), m)`, which `modInt_lt` and `modInt_dvd` describe. -/
theorem loadsNormalisesSignedArgument : Obligations.LoadsNormalisesSignedArgument := fun _ _ rd h hcfg =>
  ⟨_, modInt_lt _ hcfg.m_pos, modInt_dvd _ hcfg.m_pos, exec_loads_completing rd h hcfg⟩

/-- Settles O18: the value is `mod(uint64(ARG), m)`, which `modInt_lt` and `modInt_dvd` describe. -/
theorem loaduNormalisesUnsignedArgument : Obligations.LoaduNormalisesUnsignedArgument := fun _ _ rd h hcfg =>
  ⟨_, modInt_lt _ hcfg.m_pos, modInt_dvd _ hcfg.m_pos, exec_loadu_completing rd h hcfg⟩

/-- Settles O47: an argument below the modulus is its own signed value, and its own remainder. -/
theorem loadingAResidueIsIdentity : Obligations.LoadingAResidueIsIdentity := by
  intro s snap rd h hcfg hlt
  rw [exec_loads_completing rd h hcfg, hcfg.arg_toInt hlt, modInt_natCast, Nat.mod_eq_of_lt hlt]

end Sys2Proof.Machine
end

section
/-! SUPPORT. The multiplication statements of spec/43_multiply.md: MUL completes with the exact product reduced modulo m,
and the products of residues obey the multiplicative laws of the ring Z/mZ. -/

namespace Sys2Proof.Machine

/-! ### The register a successful command writes (R126) -/

theorem State.reg_succeeded_ne (s : State) {rd j : Reg} (v : Nat) (h : j ≠ rd) : (s.succeeded rd v).reg j = s.reg j :=
  (State.reg_finishCommand s rd j v).trans (if_neg h)

/-- A value below a modulus word is below 2^32, so the destination holds it without loss. -/
theorem State.toNat_reg_succeeded (s : State) (rd : Reg) {v : Nat} {m : Word} (hv : v < m.toNat) :
    ((s.succeeded rd v).reg rd).toNat = v := by
  have hreg : (s.succeeded rd v).reg rd = BitVec.ofNat 32 v := (State.reg_finishCommand s rd rd v).trans (if_pos rfl)
  rw [hreg, BitVec.toNat_ofNat, Nat.mod_eq_of_lt (hv.trans m.isLt)]

/-! ### MUL's completion (R180, R181) -/

/-- MUL completes with `mod(a * b, m)` of the latched operands (R180). -/
theorem exec_mul_completing {s : State} {snap : Snap} (rd rs1 rs2 : Reg) (h : s.completing snap)
    (hcfg : snap.configured) :
    exec (.mul rd rs1 rs2) s = .next (s.succeeded rd (snap.a.toNat * snap.b.toNat % snap.m.toNat)) :=
  exec_finishing h hcfg rfl rfl

/-- Settles O19: the completion is `exec_mul_completing`, and its value is below m, so the register holds it. -/
theorem mulWritesReducedExactProduct : Obligations.MulWritesReducedExactProduct := fun s _ rd rs1 rs2 h hcfg =>
  ⟨_, exec_mul_completing rd rs1 rs2 h hcfg, rfl, s.toNat_reg_succeeded rd (Nat.mod_lt _ hcfg.m_pos),
    fun _ => s.reg_succeeded_ne _⟩

/-! ### The multiplicative laws (R182) -/

/-- Operands and modulus that fit in their words lose nothing in the snapshot: MUL's outcome is the product of the
numbers themselves. -/
theorem mulOf_eq {a b m : Nat} (ha : a < 2 ^ 32) (hb : b < 2 ^ 32) (hm : m < 2 ^ 32) :
    mulOf a b m = .finish (a * b % m) := by
  simp only [mulOf, mulResult, Snap.of, BitVec.toNat_ofNat, Nat.mod_eq_of_lt ha, Nat.mod_eq_of_lt hb,
    Nat.mod_eq_of_lt hm]

/-- Settles O48: MUL's outcome is the product reduced (`mulOf_eq`), so each law is the one of the exact product; for
associativity the inner reduction of either bracketing is dropped. -/
theorem multiplicationLawsHold : Obligations.MultiplicationLawsHold := by
  intro m a b c hm2 hm ha hb hc
  have hm0 : 0 < m := by omega
  have hmul : ∀ {x y : Nat}, x < m → y < m → mulOf x y m = .finish (x * y % m) := fun hx hy =>
    mulOf_eq (by omega) (by omega) (by omega)
  have hab : a * b % m < m := Nat.mod_lt _ hm0
  have hbc : b * c % m < m := Nat.mod_lt _ hm0
  refine ⟨?commutative, ⟨a * b % m, b * c % m, a * b % m * c % m, hab, hbc, Nat.mod_lt _ hm0, hmul ha hb, hmul hb hc,
    hmul hab hc, ?associative⟩, ?identity, ?zero⟩
  case commutative => rw [hmul ha hb, hmul hb ha, Nat.mul_comm]
  case associative => rw [hmul ha hbc, Nat.mul_mod_mod, Nat.mod_mul_mod, Nat.mul_assoc]
  case identity => rw [hmul ha hm2, Nat.mul_one, Nat.mod_eq_of_lt ha]
  case zero => rw [hmul ha hm0, Nat.mul_zero, Nat.zero_mod]

end Sys2Proof.Machine
end

section
/-! SUPPORT. The inversion statements of spec/44_inversion.md: INV completes with the inverse of a coprime operand and
with Uninvertible otherwise, and inverses undo themselves and multiplication. -/

namespace Sys2Proof.Machine

/-! ### INV's completion (R190, R191, R194) -/

section

variable {s : State} {snap : Snap}

/-- A command of a configured snapshot whose own outcome raises fails with that error's code (R124, R127). -/
theorem exec_raising {i : Instr} {rd : Reg} {own : Snap → Result} {e : ErrorCode} (h : s.completing snap)
    (hcfg : snap.configured) (ho : ownOutcome i = some (rd, own)) (he : own snap = .raise e) :
    exec i s = .next (s.failed e.code) := by
  rw [exec_completing h ho, commonChecks_configured own hcfg.m_ne_zero, he, completeCommand_raise]

theorem invResult_coprime (hg : Nat.gcd snap.a.toNat snap.m.toNat = 1) :
    invResult snap = .finish (invmod snap.a.toNat snap.m.toNat) := if_pos hg

theorem invResult_not_coprime (hg : Nat.gcd snap.a.toNat snap.m.toNat ≠ 1) : invResult snap = .raise .uninvertible :=
  if_neg hg

theorem Snap.configured.two_le_m (hcfg : snap.configured) : 2 ≤ snap.m.toNat := by
  obtain ⟨hm2, -⟩ := hcfg
  exact hm2

/-- `gcd(0, m) = m` is not 1 under a legal modulus, so 0 has no inverse (R194). -/
theorem Snap.configured.gcd_ne_one_of_zero (hcfg : snap.configured) (ha : snap.a = 0) :
    Nat.gcd snap.a.toNat snap.m.toNat ≠ 1 := by
  have hgcd : Nat.gcd snap.a.toNat snap.m.toNat = snap.m.toNat := by simp [ha]
  have hm2 := hcfg.two_le_m
  omega

/-- INV of an operand coprime with the modulus completes with its inverse (R191). -/
theorem exec_inv_coprime (rd rs1 : Reg) (h : s.completing snap) (hcfg : snap.configured)
    (hg : Nat.gcd snap.a.toNat snap.m.toNat = 1) :
    exec (.inv rd rs1) s = .next (s.succeeded rd (invmod snap.a.toNat snap.m.toNat)) :=
  exec_finishing h hcfg rfl (invResult_coprime hg)

/-- INV of any other operand fails with Uninvertible, code 2 (R191). -/
theorem exec_inv_not_coprime (rd rs1 : Reg) (h : s.completing snap) (hcfg : snap.configured)
    (hg : Nat.gcd snap.a.toNat snap.m.toNat ≠ 1) : exec (.inv rd rs1) s = .next (s.failed 2) :=
  exec_raising h hcfg rfl (invResult_not_coprime hg)

end

/-- Settles O21: the value is `invmod(a, m)`, which `invmod_lt` and `invmod_spec` describe; 0 is never coprime. -/
theorem invWritesInverseOrFails : Obligations.InvWritesInverseOrFails := fun _ _ rd rs1 h hcfg =>
  ⟨fun hg => ⟨_, invmod_lt _ hcfg.m_pos, invmod_spec hcfg.two_le_m hg, exec_inv_coprime rd rs1 h hcfg hg⟩,
    exec_inv_not_coprime rd rs1 h hcfg,
    fun ha => exec_inv_not_coprime rd rs1 h hcfg (hcfg.gcd_ne_one_of_zero ha)⟩

/-! ### The laws of inverses (R195) -/

/-- An operand and a modulus that fit in their words lose nothing in the snapshot: INV's outcome for coprime numbers is
the inverse of the numbers themselves. -/
theorem invOf_coprime {a m : Nat} (ha : a < 2 ^ 32) (hm : m < 2 ^ 32) (hg : Nat.gcd a m = 1) :
    invOf a m = .finish (invmod a m) := by
  simp only [invOf, invResult, Snap.of, BitVec.toNat_ofNat, Nat.mod_eq_of_lt ha, Nat.mod_eq_of_lt hm, if_pos hg]

section

variable {a m : Nat}

theorem invmod_mul_self (hm : 2 ≤ m) (hg : Nat.gcd a m = 1) : invmod a m * a % m = 1 := by
  rw [Nat.mul_comm, invmod_spec hm hg]

/-- An inverse is coprime with the modulus: `a` inverts it. -/
theorem gcd_invmod (hm : 2 ≤ m) (hg : Nat.gcd a m = 1) : Nat.gcd (invmod a m) m = 1 :=
  gcd_eq_one_of_inverse (invmod_mul_self hm hg)

/-- Both `a` and the inverse of its inverse invert `invmod(a, m)`, so they are one residue (R190). -/
theorem invmod_invmod (hm : 2 ≤ m) (ha : a < m) (hg : Nat.gcd a m = 1) : invmod (invmod a m) m = a :=
  inverse_unique (invmod_lt _ (by omega)) ha (invmod_spec hm (gcd_invmod hm hg)) (invmod_mul_self hm hg)

/-- Division by `b` undoes multiplication by it. -/
theorem mul_invmod_mul_mod {b : Nat} (hm : 2 ≤ m) (ha : a < m) (hg : Nat.gcd b m = 1) :
    a * invmod b m % m * b % m = a :=
  calc a * invmod b m % m * b % m
      = a * (invmod b m * b % m) % m := by rw [Nat.mod_mul_mod, Nat.mul_assoc, Nat.mul_mod_mod]
    _ = a := by rw [invmod_mul_self hm hg, Nat.mul_one, Nat.mod_eq_of_lt ha]

end

/-- Settles O49: the outcomes are `invmod` and the product reduced (`invOf_coprime`, `mulOf_eq`), which obey the laws by
`invmod_spec`, `invmod_invmod` and `mul_invmod_mul_mod`. -/
theorem inverseLawsHold : Obligations.InverseLawsHold := by
  intro m hm2 hm
  have hmul : ∀ {x y : Nat}, x < m → y < m → mulOf x y m = .finish (x * y % m) := fun hx hy =>
    mulOf_eq (by omega) (by omega) (by omega)
  have hinv : ∀ {x : Nat}, x < m → Nat.gcd x m = 1 → invOf x m = .finish (invmod x m) := fun hx =>
    invOf_coprime (by omega) (by omega)
  have hlt : ∀ x, invmod x m < m := fun x => invmod_lt x (by omega)
  refine ⟨fun a ha hg => ⟨invmod a m, hlt a, hinv ha hg, ?inverse, ?involution⟩, fun a b ha hb hg =>
    have hp : a * invmod b m % m < m := Nat.mod_lt _ (by omega)
    ⟨invmod b m, a * invmod b m % m, hlt b, hp, hinv hb hg, hmul ha (hlt b), ?division⟩⟩
  case inverse => rw [hmul ha (hlt a), invmod_spec hm2 hg]
  case involution => rw [hinv (hlt a) (gcd_invmod hm2 hg), invmod_invmod hm2 ha hg]
  case division => rw [hmul hp hb, mul_invmod_mul_mod hm2 ha hg]

end Sys2Proof.Machine
end

section
/-! SUPPORT. The exponentiation statements of spec/45_exponentiation.md: POW completes with the power of the operand or
of its inverse, fails exactly where the inverse is missing, and its results obey the laws of powers. -/

namespace Sys2Proof.Machine

/-! ### POW's completion (R211, R213) -/

section

variable {s : State} {snap : Snap}

/-- The signed argument is the exponent, and its magnitude fits the loop's 64 bits (R8, R214). -/
theorem toNat_arg_lt (snap : Snap) : snap.arg.toInt.toNat < 2 ^ 64 ∧ (-snap.arg.toInt).toNat < 2 ^ 64 := by
  have hb := sint64_bounds snap.arg
  rw [sint64_eq_toInt] at hb
  omega

theorem powResult_nonneg (he : 0 ≤ snap.arg.toInt) :
    powResult snap = .finish (snap.a.toNat ^ snap.arg.toInt.toNat % snap.m.toNat) := by
  rw [← powmod_eq _ _ (toNat_arg_lt snap).1, powResult]
  simp only [sint64_eq_toInt, if_pos he]

theorem powResult_neg_coprime (he : snap.arg.toInt < 0) (hg : Nat.gcd snap.a.toNat snap.m.toNat = 1) :
    powResult snap = .finish (invmod snap.a.toNat snap.m.toNat ^ (-snap.arg.toInt).toNat % snap.m.toNat) := by
  rw [← powmod_eq _ _ (toNat_arg_lt snap).2, powResult]
  simp only [sint64_eq_toInt, if_neg he.not_ge, if_pos hg]

theorem powResult_neg_not_coprime (he : snap.arg.toInt < 0) (hg : Nat.gcd snap.a.toNat snap.m.toNat ≠ 1) :
    powResult snap = .raise .uninvertible := by
  rw [powResult]
  simp only [sint64_eq_toInt, if_neg he.not_ge, if_neg hg]

end

/-- Settles O20: each case of the exponent's sign and the operand's gcd is POW's own outcome there, and the base of a
negative power is the inverse of the operand (`invmod_spec`). -/
theorem powRaisesToSignedExponent : Obligations.PowRaisesToSignedExponent := fun _ _ _ _ h hcfg =>
  ⟨fun he => exec_finishing h hcfg rfl (powResult_nonneg he),
    fun he hg => ⟨_, invmod_lt _ hcfg.m_pos, invmod_spec hcfg.two_le_m hg,
      exec_finishing h hcfg rfl (powResult_neg_coprime he hg)⟩,
    fun he hg => exec_raising h hcfg rfl (powResult_neg_not_coprime he hg)⟩

/-! ### INV of numbers (R190, R191) -/

section

variable {a m : Nat}

theorem invOf_not_coprime (ha : a < 2 ^ 32) (hm : m < 2 ^ 32) (hg : Nat.gcd a m ≠ 1) :
    invOf a m = .raise .uninvertible := by
  simp only [invOf, invResult, Snap.of, BitVec.toNat_ofNat, Nat.mod_eq_of_lt ha, Nat.mod_eq_of_lt hm, if_neg hg]

theorem invOf_eq_raise_iff (ha : a < 2 ^ 32) (hm : m < 2 ^ 32) {e : ErrorCode} :
    invOf a m = .raise e ↔ e = .uninvertible ∧ Nat.gcd a m ≠ 1 := by
  by_cases hg : Nat.gcd a m = 1
  · simp [invOf_coprime ha hm hg, hg]
  · simp [invOf_not_coprime ha hm hg, hg, eq_comm]

/-- INV answers with whatever residue inverts its operand: there is only one. -/
theorem invOf_eq_of_inverse {y : Nat} (ha : a < 2 ^ 32) (hm2 : 2 ≤ m) (hm : m < 2 ^ 32) (hy : y < m)
    (hay : a * y % m = 1) : invOf a m = .finish y := by
  have hg : Nat.gcd a m = 1 := gcd_eq_one_of_inverse hay
  rw [invOf_coprime ha hm hg, inverse_unique (invmod_lt a (by omega)) hy (invmod_spec hm2 hg) hay]

end

/-! ### POW of numbers (R211) -/

theorem inSigned64_of_bounds {k : Int} (hlo : -2 ^ 63 ≤ k) (hhi : k < 2 ^ 63) : inSigned64 k = true := by
  rw [inSigned64, decide_eq_true hlo, decide_eq_true hhi, Bool.and_self]

section

variable {a m : Nat} {k : Int} (ha : a < 2 ^ 32) (hm : m < 2 ^ 32) (hk : inSigned64 k = true)

include ha hm hk

/-- An operand, an exponent and a modulus that fit in their words lose nothing in the snapshot. -/
theorem Snap.of_operands (b : Nat) (P : Bool) :
    (Snap.of a b k m P).a.toNat = a ∧ (Snap.of a b k m P).m.toNat = m ∧ (Snap.of a b k m P).arg.toInt = k :=
  ⟨Nat.mod_eq_of_lt ha, Nat.mod_eq_of_lt hm, by rw [← sint64_eq_toInt]; exact sint64_ofInt hk⟩

theorem powOf_nonneg (h0 : 0 ≤ k) : powOf a m k = .finish (a ^ k.toNat % m) := by
  obtain ⟨hsa, hsm, hsk⟩ := Snap.of_operands ha hm hk 0 false
  rw [powOf, powResult_nonneg (by rwa [hsk]), hsa, hsm, hsk]

theorem powOf_neg_coprime (h0 : k < 0) (hg : Nat.gcd a m = 1) :
    powOf a m k = .finish (invmod a m ^ (-k).toNat % m) := by
  obtain ⟨hsa, hsm, hsk⟩ := Snap.of_operands ha hm hk 0 false
  rw [powOf, powResult_neg_coprime (by rwa [hsk]) (by rwa [hsa, hsm]), hsa, hsm, hsk]

theorem powOf_neg_not_coprime (h0 : k < 0) (hg : Nat.gcd a m ≠ 1) : powOf a m k = .raise .uninvertible := by
  obtain ⟨hsa, hsm, hsk⟩ := Snap.of_operands ha hm hk 0 false
  rw [powOf, powResult_neg_not_coprime (by rwa [hsk]) (by rwa [hsa, hsm])]

/-- POW raises one error, exactly for a negative power of an operand without an inverse (R211, R215). -/
theorem powOf_eq_raise_iff {e : ErrorCode} :
    powOf a m k = .raise e ↔ e = .uninvertible ∧ k < 0 ∧ Nat.gcd a m ≠ 1 := by
  by_cases h0 : 0 ≤ k
  · simp [powOf_nonneg ha hm hk h0, h0]
  · by_cases hg : Nat.gcd a m = 1
    · simp [powOf_neg_coprime ha hm hk (not_le.mp h0) hg, hg]
    · simp [powOf_neg_not_coprime ha hm hk (not_le.mp h0) hg, hg, not_le.mp h0, eq_comm]

/-- A power of an operand without an inverse succeeds for natural exponents only. -/
theorem nonneg_of_powOf_not_coprime (hg : Nat.gcd a m ≠ 1) {v : Nat} (hv : powOf a m k = .finish v) : 0 ≤ k := by
  by_contra h0
  rw [powOf_neg_not_coprime ha hm hk (not_le.mp h0) hg] at hv
  cases hv

/-- A power that succeeds is a residue: every command's result is. -/
theorem powOf_lt (ham : a < m) {v : Nat} (hv : powOf a m k = .finish v) : v < m := by
  obtain ⟨hsa, hsm, -⟩ := Snap.of_operands ha hm hk 0 false
  have hlt := ownOutcome_lt (i := .pow 0 0) rfl (snap := Snap.of a 0 k m false) (by omega) (by omega) hv
  rwa [hsm] at hlt

end

/-! ### The failures of POW (R215) -/

/-- Settles O53: both failures are those of an operand without an inverse (`powOf_eq_raise_iff`, `invOf_eq_raise_iff`),
of which 0 is one. -/
theorem negativePowerFailsAsInverseDoes : Obligations.NegativePowerFailsAsInverseDoes := by
  intro m a hm2 hm ham k hk
  have hm32 : m < 2 ^ 32 := by omega
  have ha32 : a < 2 ^ 32 := by omega
  refine ⟨fun hneg => ?negative, fun h0 => ⟨_, Nat.mod_lt _ (by omega), powOf_nonneg ha32 hm32 hk h0⟩, ?zeroInverse,
    fun hm3 => ?zeroFermat⟩
  case negative => simp only [powOf_eq_raise_iff ha32 hm32 hk, invOf_eq_raise_iff ha32 hm32, hneg, true_and]
  case zeroInverse =>
    have hg : Nat.gcd 0 m ≠ 1 := by rw [Nat.gcd_zero_left]; omega
    exact powOf_neg_not_coprime (by decide) hm32 (by decide) (by decide) hg
  case zeroFermat =>
    have hk2 : inSigned64 (m - 2 : Nat) = true := inSigned64_of_bounds (by omega) (by omega)
    rw [powOf_nonneg (by decide) hm32 hk2 (Int.natCast_nonneg _), Int.toNat_natCast, Nat.zero_pow (by omega),
      Nat.zero_mod]

/-! ### The laws of powers (R216) -/

section

variable {a m : Nat}

/-- `invmod(a, m)` is the inverse of `a` in the units of Z/mZ. -/
theorem cast_invmod (hm2 : 2 ≤ m) (hg : Nat.gcd a m = 1) :
    ((invmod a m : Nat) : ZMod m) = ((ZMod.unitOfCoprime a hg)⁻¹ : (ZMod m)ˣ) := by
  have hmul : ((a * invmod a m : Nat) : ZMod m) = 1 := by
    rw [← ZMod.natCast_mod, invmod_spec hm2 hg, Nat.cast_one]
  rw [Nat.cast_mul] at hmul
  exact (Units.inv_eq_of_mul_eq_one_right (u := ZMod.unitOfCoprime a hg) hmul).symm

variable (hm2 : 2 ≤ m) (hm : m < 2 ^ 32) (ham : a < m)

include hm2 hm ham

/-- A power of an operand coprime with the modulus is the integer power of a unit of Z/mZ. -/
theorem cast_of_powOf_coprime (hg : Nat.gcd a m = 1) {k : Int} (hk : inSigned64 k = true) {v : Nat}
    (hv : powOf a m k = .finish v) : (v : ZMod m) = (ZMod.unitOfCoprime a hg ^ k : (ZMod m)ˣ) := by
  have ha : a < 2 ^ 32 := by omega
  by_cases h0 : 0 ≤ k
  · obtain ⟨n, rfl⟩ := Int.eq_ofNat_of_zero_le h0
    rw [powOf_nonneg ha hm hk h0, Result.finish.injEq] at hv
    rw [← hv, ZMod.natCast_mod, Int.toNat_natCast, Nat.cast_pow, zpow_natCast, Units.val_pow_eq_pow_val,
      ZMod.coe_unitOfCoprime]
  · obtain ⟨n, hn⟩ := Int.eq_ofNat_of_zero_le (a := -k) (by omega)
    obtain rfl : k = -n := by omega
    rw [powOf_neg_coprime ha hm hk (by omega) hg, Result.finish.injEq] at hv
    rw [← hv, ZMod.natCast_mod, neg_neg, Int.toNat_natCast, Nat.cast_pow, cast_invmod hm2 hg, zpow_neg, zpow_natCast,
      ← inv_pow, Units.val_pow_eq_pow_val]

/-- Exponents add: in the units of Z/mZ when the operand is coprime with m, and over the naturals else. -/
theorem mul_mod_of_powOf {j k : Int} (hj : inSigned64 j = true) (hk : inSigned64 k = true)
    (hjk : inSigned64 (j + k) = true) {u v w : Nat} (hu : powOf a m j = .finish u) (hv : powOf a m k = .finish v)
    (hw : powOf a m (j + k) = .finish w) : u * v % m = w := by
  have ha : a < 2 ^ 32 := by omega
  by_cases hg : Nat.gcd a m = 1
  · apply cast_inj_of_lt (Nat.mod_lt _ (by omega)) (powOf_lt ha hm hjk ham hw)
    rw [ZMod.natCast_mod, Nat.cast_mul, cast_of_powOf_coprime hm2 hm ham hg hj hu,
      cast_of_powOf_coprime hm2 hm ham hg hk hv, cast_of_powOf_coprime hm2 hm ham hg hjk hw, zpow_add, Units.val_mul]
  · have hj0 := nonneg_of_powOf_not_coprime ha hm hj hg hu
    have hk0 := nonneg_of_powOf_not_coprime ha hm hk hg hv
    rw [powOf_nonneg ha hm hj hj0, Result.finish.injEq] at hu
    rw [powOf_nonneg ha hm hk hk0, Result.finish.injEq] at hv
    rw [powOf_nonneg ha hm hjk (by omega), Result.finish.injEq, Int.toNat_add hj0 hk0, pow_add, Nat.mul_mod] at hw
    rw [← hu, ← hv, hw]

theorem powOf_zero : powOf a m 0 = .finish 1 := by
  rw [powOf_nonneg (by omega) hm (by decide) le_rfl, Int.toNat_zero, pow_zero, Nat.mod_eq_of_lt hm2]

/-- A negative power is the inverse of the positive one: their product is the power 0, and a positive power has an
inverse only where its base has one. -/
theorem powOf_neg_eq_invOf {k : Int} (hk : inSigned64 k = true) (hnk : inSigned64 (-k) = true) {v : Nat}
    (hv : powOf a m k = .finish v) (h0 : 0 ≤ k) : powOf a m (-k) = invOf v m := by
  have ha : a < 2 ^ 32 := by omega
  have hvm : v < m := powOf_lt ha hm hk ham hv
  symm
  cases hw : powOf a m (-k) with
  | finish w =>
    have hone : powOf a m (k + -k) = .finish 1 := by rw [add_neg_cancel]; exact powOf_zero hm2 hm ham
    have hvw : v * w % m = 1 := mul_mod_of_powOf hm2 hm ham hk hnk (by rw [add_neg_cancel]; rfl) hv hw hone
    exact invOf_eq_of_inverse (by omega) hm2 hm (powOf_lt ha hm hnk ham hw) hvw
  | raise e =>
    obtain ⟨rfl, hneg, hg⟩ := (powOf_eq_raise_iff ha hm hnk).mp hw
    rw [powOf_nonneg ha hm hk h0, Result.finish.injEq] at hv
    refine (invOf_eq_raise_iff (by omega) hm).mpr ⟨rfl, fun hgv => hg ?_⟩
    rw [← hv, (Nat.mod_modEq (a ^ k.toNat) m).gcd_eq] at hgv
    exact (Nat.coprime_pow_left_iff (by omega) a m).mp hgv

end

/-- Settles O50: the sum of exponents by `mul_mod_of_powOf`, the negative exponent by `powOf_neg_eq_invOf`, its
failure by `powOf_eq_raise_iff`. -/
theorem powerLawsHold : Obligations.PowerLawsHold := by
  intro m a hm2 hm ham
  have hm32 : m < 2 ^ 32 := by omega
  have ha32 : a < 2 ^ 32 := by omega
  refine ⟨powOf_zero hm2 hm32 ham, fun j k hj hk hjk u v w hu hv hw => ?sum, fun k h0 hlt => ?opposite⟩
  case sum =>
    have hum : u < m := powOf_lt ha32 hm32 hj ham hu
    have hvm : v < m := powOf_lt ha32 hm32 hk ham hv
    rw [mulOf_eq (by omega) (by omega) hm32, mul_mod_of_powOf hm2 hm32 ham hj hk hjk hu hv hw]
  case opposite =>
    have hk : inSigned64 k = true := inSigned64_of_bounds (by omega) hlt
    have hnk : inSigned64 (-k) = true := inSigned64_of_bounds (by omega) (by omega)
    have hv := powOf_nonneg ha32 hm32 hk h0
    refine ⟨_, hv, powOf_lt ha32 hm32 hk ham hv, powOf_neg_eq_invOf hm2 hm32 ham hk hnk hv h0, fun h1 => ?_⟩
    have hneg : -k < 0 := by omega
    simp only [powOf_eq_raise_iff ha32 hm32 hnk, hneg, true_and]

/-! ### Powers under a prime modulus (R217) -/

/-- Settles O51: Fermat's little theorem for the power m - 1, which makes the power m - 2 the inverse. -/
theorem fermatPowersHold : Obligations.FermatPowersHold := by
  intro m a hp hm hpos ham
  have hm2 : 2 ≤ m := hp.two_le
  have hm32 : m < 2 ^ 32 := by omega
  have hpow : ∀ n : Nat, n < m → powOf a m n = .finish (a ^ n % m) := fun n hn =>
    powOf_nonneg (by omega) hm32 (inSigned64_of_bounds (by omega) (by omega)) (Int.natCast_nonneg n)
  have hfermat : a ^ (m - 1) % m = 1 := by
    have h := Nat.ModEq.pow_totient (Nat.coprime_of_lt_prime hpos.ne' ham hp).symm
    rwa [Nat.totient_prime hp, Nat.ModEq, Nat.mod_eq_of_lt hm2] at h
  have hinverse : a * (a ^ (m - 2) % m) % m = 1 := by
    rw [Nat.mul_mod_mod, ← pow_succ', show m - 2 + 1 = m - 1 by omega, hfermat]
  have hinv : invOf a m = .finish (a ^ (m - 2) % m) :=
    invOf_eq_of_inverse (by omega) hm2 hm32 (Nat.mod_lt _ (by omega)) hinverse
  exact ⟨by rw [hpow _ (by omega), hfermat], by rw [hpow _ (by omega), hinv], _, hinv⟩

end Sys2Proof.Machine
end

section
/-! SUPPORT. The square-root statements of spec/46_sqrt.md: SQRT completes with the smaller root of a square, with its
own errors otherwise, and undoes squaring up to sign. -/

namespace Sys2Proof.Machine

/-! ### Squares modulo an odd prime (R233 to R235) -/

section

variable {m : Nat} (hp : m.Prime)

include hp

/-- A prime divides the square of no number between 0 and it. -/
theorem mul_self_mod_ne_zero {a : Nat} (h0 : 0 < a) (ham : a < m) : a * a % m ≠ 0 := by
  intro h
  have hdvd : m ∣ a := or_self_iff.mp (hp.dvd_mul.mp (Nat.dvd_of_mod_eq_zero h))
  exact absurd (Nat.le_of_dvd h0 hdvd) (by omega)

/-- A small root is the engine's root: it is a root by `sqrtmod_spec`, and the only small one by `smallRoot_unique`. -/
theorem smallRoot_eq_sqrtmod (h2 : m ≠ 2) (hm : m < 2 ^ 32) {q : Nat} (hq1 : 1 ≤ q) (hq : q ≤ (m - 1) / 2) :
    q = sqrtmod (q * q % m) m := by
  have hpos : 0 < m := hp.pos
  have hn : q * q % m < m := Nat.mod_lt _ hpos
  have hn0 := mul_self_mod_ne_zero hp hq1 (by omega)
  have heuler := (euler_iff_square hp h2 hm hn0 hn).mpr ⟨q, by omega, rfl⟩
  obtain ⟨hr1, hr, hroot⟩ := sqrtmod_spec hp h2 hm hn0 hn heuler
  exact smallRoot_unique hp hq1 hq hr1 hr hroot.symm

end

/-- `a` and its negative `m - a` have one square modulo m, so the smaller of them has it too. -/
theorem min_mul_self_mod {a m : Nat} (ham : a ≤ m) : min a (m - a) * min a (m - a) % m = a * a % m := by
  refine (ZMod.natCast_eq_natCast_iff' _ _ m).mp ?_
  rcases min_choice a (m - a) with h | h
  · rw [h]
  · rw [h, Nat.cast_mul, Nat.cast_mul, Nat.cast_sub ham, ZMod.natCast_self, zero_sub, neg_mul_neg]

/-- The engine's root of a square is the smaller of the two numbers squared. -/
theorem sqrtmod_mul_self {a m : Nat} (hp : m.Prime) (h2 : m ≠ 2) (hm : m < 2 ^ 32) (h0 : 0 < a) (ham : a < m) :
    sqrtmod (a * a % m) m = min a (m - a) := by
  have hodd : m % 2 = 1 := hp.eq_two_or_odd.resolve_left h2
  rw [← min_mul_self_mod ham.le]
  exact (smallRoot_eq_sqrtmod hp h2 hm (by omega) (by omega)).symm

/-! ### SQRT's own outcome, case by case (R231, R232) -/

section

variable {snap : Snap}

theorem sqrtResult_zero (hn : snap.a.toNat = 0) : sqrtResult snap = .finish 0 := if_pos hn

section

variable (hn : snap.a.toNat ≠ 0)

include hn

theorem sqrtResult_two (h2 : snap.m.toNat = 2) : sqrtResult snap = .finish snap.a.toNat := by
  simp only [sqrtResult, if_neg hn, if_pos h2]

/-- Under a composite modulus the latched flag is clear, and 2 is no composite (R144, R232). -/
theorem sqrtResult_composite (hcfg : snap.configured) (hp : ¬ Nat.Prime snap.m.toNat) :
    sqrtResult snap = .raise .notPrimeModulus := by
  obtain ⟨-, -, -, -, hP⟩ := hcfg
  have h2 : snap.m.toNat ≠ 2 := fun h => hp (h ▸ Nat.prime_two)
  have hPf : snap.P = false := Bool.eq_false_iff.mpr (mt hP.mp hp)
  simp only [sqrtResult, if_neg hn, if_neg h2, hPf, Bool.not_false, if_true]

variable (hcfg : snap.configured) (h2 : snap.m.toNat ≠ 2) (hp : Nat.Prime snap.m.toNat)

include hcfg h2 hp

/-- Under an odd prime modulus Euler's criterion decides between the root and NotQuadraticResidue (R232, R235). -/
theorem sqrtResult_oddPrime :
    sqrtResult snap = if ∃ r < snap.m.toNat, r * r % snap.m.toNat = snap.a.toNat
      then .finish (sqrtmod snap.a.toNat snap.m.toNat) else .raise .notQuadraticResidue := by
  obtain ⟨-, -, ha, -, hP⟩ := hcfg
  have hPt : snap.P = true := hP.mpr hp
  simp only [sqrtResult, if_neg hn, if_neg h2, hPt, Bool.not_true, Bool.false_eq_true, if_false, ne_eq, ite_not,
    euler_iff_square hp h2 snap.m.isLt hn ha]

theorem sqrtResult_nonSquare (hsq : ¬ ∃ r < snap.m.toNat, r * r % snap.m.toNat = snap.a.toNat) :
    sqrtResult snap = .raise .notQuadraticResidue := by
  rw [sqrtResult_oddPrime hn hcfg h2 hp, if_neg hsq]

variable (hsq : ∃ r < snap.m.toNat, r * r % snap.m.toNat = snap.a.toNat)

include hsq

theorem sqrtResult_square : sqrtResult snap = .finish (sqrtmod snap.a.toNat snap.m.toNat) := by
  rw [sqrtResult_oddPrime hn hcfg h2 hp, if_pos hsq]

/-- The engine's root of a square operand is small and squares to it (R233). -/
theorem sqrtmod_operand_spec :
    1 ≤ sqrtmod snap.a.toNat snap.m.toNat ∧ sqrtmod snap.a.toNat snap.m.toNat ≤ (snap.m.toNat - 1) / 2 ∧
      sqrtmod snap.a.toNat snap.m.toNat * sqrtmod snap.a.toNat snap.m.toNat % snap.m.toNat = snap.a.toNat := by
  obtain ⟨-, -, ha, -⟩ := hcfg
  exact sqrtmod_spec hp h2 snap.m.isLt hn ha ((euler_iff_square hp h2 snap.m.isLt hn ha).mpr hsq)

end

end

/-- Settles O22: each case is SQRT's own outcome there; the root of a square is `sqrtmod`, small by
`sqrtmod_operand_spec` and the only small root by `smallRoot_eq_sqrtmod`. -/
theorem sqrtWritesSmallerRootOrFails : Obligations.SqrtWritesSmallerRootOrFails := by
  intro s snap rd rs1 h hcfg
  refine ⟨fun hn => exec_finishing h hcfg rfl (sqrtResult_zero hn),
    fun hn h2 => exec_finishing h hcfg rfl (sqrtResult_two hn h2),
    fun hn hp => exec_raising h hcfg rfl (sqrtResult_composite hn hcfg hp),
    fun hn h2 hp hsq => exec_raising h hcfg rfl (sqrtResult_nonSquare hn hcfg h2 hp hsq),
    fun hn h2 hp hsq => ?square⟩
  case square =>
    obtain ⟨hr1, hr, hroot⟩ := sqrtmod_operand_spec hn hcfg h2 hp hsq
    refine ⟨_, hr1, hr, hroot, exec_finishing h hcfg rfl (sqrtResult_square hn hcfg h2 hp hsq),
      fun q hq1 hq hqn => ?_⟩
    rw [← hqn]
    exact smallRoot_eq_sqrtmod hp h2 snap.m.isLt hq1 hq

/-! ### The laws of square roots (R239) -/

/-- A SQRT that succeeds gives a root of the operand, no larger than the other one. -/
theorem root_of_sqrtResult {snap : Snap} (hcfg : snap.configured) {r : Nat} (hr : sqrtResult snap = .finish r) :
    r * r % snap.m.toNat = snap.a.toNat ∧ r ≤ snap.m.toNat - r := by
  by_cases hn : snap.a.toNat = 0
  · rw [sqrtResult_zero hn, Result.finish.injEq] at hr
    simp [← hr, hn]
  by_cases h2 : snap.m.toNat = 2
  · rw [sqrtResult_two hn h2, Result.finish.injEq] at hr
    obtain ⟨-, -, ha, -⟩ := hcfg
    have h1 : snap.a.toNat = 1 := by omega
    rw [← hr, h2, h1]
    decide
  by_cases hp : Nat.Prime snap.m.toNat
  · by_cases hsq : ∃ r < snap.m.toNat, r * r % snap.m.toNat = snap.a.toNat
    · rw [sqrtResult_square hn hcfg h2 hp hsq, Result.finish.injEq] at hr
      obtain ⟨-, hle, hroot⟩ := sqrtmod_operand_spec hn hcfg h2 hp hsq
      rw [hr] at hle hroot
      exact ⟨hroot, by omega⟩
    · rw [sqrtResult_nonSquare hn hcfg h2 hp hsq] at hr
      cases hr
  · rw [sqrtResult_composite hn hcfg hp] at hr
    cases hr

section

variable {n m : Nat} (hp : m.Prime) (hm : m < 2 ^ 31) (hn : n < m)

include hp hm hn

/-- A residue and a prime modulus in range, with the flag set, make a configured snapshot with these operands. -/
theorem Snap.of_prime :
    (Snap.of n 0 0 m true).configured ∧ (Snap.of n 0 0 m true).a.toNat = n ∧
      (Snap.of n 0 0 m true).m.toNat = m := by
  obtain ⟨hsa, hsm, -⟩ := Snap.of_operands (k := 0) (show n < 2 ^ 32 by omega) (show m < 2 ^ 32 by omega) rfl 0 true
  have hb : (Snap.of n 0 0 m true).b.toNat = 0 := rfl
  have hm2 : 2 ≤ m := hp.two_le
  refine ⟨?_, hsa, hsm⟩
  rw [Snap.configured, hsa, hsm, hb]
  exact ⟨hm2, by omega, hn, by omega, iff_of_true rfl hp⟩

/-- SQRT of a square that is not 0 is the engine's root. -/
theorem sqrtOf_square (h2 : m ≠ 2) (hn0 : n ≠ 0) (hsq : ∃ r < m, r * r % m = n) :
    sqrtOf n m = .finish (sqrtmod n m) := by
  obtain ⟨hcfg, hsa, hsm⟩ := Snap.of_prime hp hm hn
  rw [sqrtOf, sqrtResult_square (by rwa [hsa]) hcfg (by rwa [hsm]) (by rwa [hsm]) (by rwa [hsa, hsm]), hsa, hsm]

end

/-- Settles O52: the first clause is `root_of_sqrtResult`; the root of a square is the smaller number squared by
`sqrtmod_mul_self`, and 0 is its own root. -/
theorem sqrtLawsHold : Obligations.SqrtLawsHold := by
  refine ⟨fun _ _ hcfg hr => root_of_sqrtResult hcfg hr, fun m a hp h2 hm ham =>
    ⟨a * a % m, mulOf_eq (by omega) (by omega) (by omega), ?_⟩⟩
  rcases Nat.eq_zero_or_pos a with rfl | h0
  · rw [Nat.zero_mul, Nat.zero_mod, Nat.zero_min]
    exact sqrtResult_zero rfl
  · rw [sqrtOf_square hp hm (Nat.mod_lt _ hp.pos) h2 (mul_self_mod_ne_zero hp h0 ham) ⟨a, ham, rfl⟩,
      sqrtmod_mul_self hp h2 (by omega) h0 ham]

end Sys2Proof.Machine
end

section
/-! SUPPORT. The statements of spec/70_reset_and_hazards.md: what a reset leaves, the reset input and the soft reset as
steps, a reset during the wait loop, and how long an operation stays in flight. -/

namespace Sys2Proof.Machine

/-! ### What a reset leaves (R291) -/

/-- After reset STATUS reads 0: no flag is set and ERRCODE is 0 (R45). -/
@[simp] theorem State.status_blockReset (s : State) : s.blockReset.status = 0 := by
  have h : s.blockReset.status = State.reset.status := rfl
  exact h.trans (by decide)

theorem State.status_of_isReset {s : State} (h : s.isReset = true) : s.status = 0 := by
  rw [← State.isReset_iff.mp h, State.status_blockReset]

@[simp] theorem argLo_zero : argLo 0 = 0 := by decide
@[simp] theorem argHi_zero : argHi 0 = 0 := by decide

/-- Settles O26: STATUS by `State.status_blockReset`, the residue registers by `State.reg_blockReset`, and the other
registers as fields of the reset state. -/
theorem registersReadResetValues : Obligations.RegistersReadResetValues := fun s =>
  ⟨s.status_blockReset, rfl, rfl, argLo_zero, argHi_zero, rfl, s.reg_blockReset, rfl, rfl, rfl⟩

/-! ### Resets as steps (R146, R290) -/

section

variable {s : State} {after : Env}

/-- The step that serves the assertion of the reset input: nothing is then in flight, so the outside world goes on. -/
theorem State.about.step_assertReset (h : s.about .assertReset after) :
    step s = .next (s.blockReset.withEnv { after with turn := .host, resetLine := true }) := by
  rw [step_event h.1 h.2, serveEvent, mapNext, schedule_quiescent rfl]
  rfl

/-- The step that serves the release of the reset input, with nothing in flight. -/
theorem State.about.step_releaseReset (h : s.about .releaseReset after) (hp : s.pending = none) :
    step s = .next (s.withEnv { after with turn := .host, resetLine := false }) := by
  rw [step_event h.1 h.2, serveEvent, mapNext, schedule_quiescent (s := (s.withEnv after).releaseReset) hp]
  rfl

/-- The step that serves a CTRL write with bit 0 set. -/
theorem State.about.step_softReset {v : Word} (h : s.about (Event.W 0x04 v) after) (hl : s.env.resetLine = false)
    (hv : v.getLsbD 0 = true) : step s = .next (s.blockReset.withEnv { after with turn := .host }) := by
  have hd : decodeWrite ⟨0x04, v⟩ = .operation (.srst v) := Laws.RoundTrip.srst v hv
  rw [h.step_operation hl hd, exec_srst, writeCtrl_reset _ hv, mapNext, schedule_quiescent rfl]
  rfl

/-- No access reaches a register while the reset input is asserted (R290). -/
theorem accessTarget_duringReset (hl : s.env.resetLine = true) (offset : Int) (bytes : Nat) :
    accessTarget offset bytes s = .error .accessDuringReset := by
  simp only [accessTarget, hl, if_true]

end

/-- Settles O25: the assertion by `State.about.step_assertReset`; each kind of access asks `accessTarget` first. -/
theorem hardwareResetIsSoftReset : Obligations.HardwareResetIsSoftReset := by
  refine ⟨fun s after h => ?_, fun s e after h hl he => ?_⟩
  · have hsrst : exec (.srst 1) s = .next s.blockReset := by rw [exec_srst, writeCtrl_reset s (by decide)]
    exact ⟨_, _, h.step_assertReset, hsrst, rfl, by simp, rfl, rfl⟩
  · have hl' : (s.withEnv after).env.resetLine = true := h.resetLine.trans hl
    have hrefused := accessTarget_duringReset hl'
    obtain ⟨a, rfl⟩ | rfl | ⟨offset, mask, value, rfl⟩ := he
    · exact h.step_refused (hrefused _ _)
    · rw [step_event h.1 h.2, serveEvent, servePoll, hrefused, mapNext]
    · rw [step_event h.1 h.2, serveEvent, serveStopIf, hrefused, mapNext]

/-! ### A reset during the wait loop (R302) -/

/-- On a reset block with no arrival due, the host's poll reads STATUS = 0 and its wait loop ends. -/
theorem poll_ends_of_isReset {s : State} {rest : List Event} (h : s.isReset = true) (ht : s.env.turn = .host)
    (hl : s.env.resetLine = false) (he : s.env.events = .poll :: rest)
    (hd : ∀ e later, s.env.arrivals ≠ (0, e) :: later) :
    ∃ t, step s = .next t ∧ t.isReset = true ∧ t.env.reads = 0 :: s.env.reads ∧ t.env.events = rest := by
  have hstatus := State.status_of_isReset h
  obtain ⟨t, hst, hblock, hreads, -, hends⟩ := pollWaitsForBusyClear s _ ⟨ht, Env.next_host he hd⟩ hl
  have hreset : (t.withEnv s.env).isReset = true := (congrArg State.isReset hblock).trans h
  exact ⟨t, hst, (State.isReset_withEnv t s.env).symm.trans hreset, by rw [hreads, hstatus],
    hends (by rw [hstatus]; rfl)⟩

/-- Settles O54: the reset is served first (an arrival that is due), then the loop's next read by
`poll_ends_of_isReset`. -/
theorem pollEndsByReset : Obligations.PollEndsByReset := by
  refine fun s _ rest more ht hl _ he hmore => ⟨fun v hv ha => ?_, fun ha => ?_⟩
  · have hreset : s.about (Event.W 0x04 v) { s.env with arrivals := more } := ⟨ht, Env.next_arrival ha⟩
    obtain ⟨t, hst, h⟩ := poll_ends_of_isReset
      (s := s.blockReset.withEnv { s.env with arrivals := more, turn := .host }) (by simp) rfl hl he hmore
    exact ⟨t, runSteps_succ (runSteps_succ rfl (hreset.step_softReset hl hv)) hst, h⟩
  · have hassert : s.about .assertReset { s.env with arrivals := (0, .releaseReset) :: more } :=
      ⟨ht, Env.next_arrival ha⟩
    have hrelease : (s.blockReset.withEnv { s.env with
          arrivals := (0, .releaseReset) :: more, turn := .host, resetLine := true }).about .releaseReset
        { s.env with arrivals := more, turn := .host, resetLine := true } := ⟨rfl, Env.next_arrival rfl⟩
    obtain ⟨t, hst, h⟩ := poll_ends_of_isReset
      (s := s.blockReset.withEnv { s.env with arrivals := more, turn := .host, resetLine := false })
      (by simp) rfl rfl he hmore
    exact ⟨t, runSteps_succ (runSteps_succ (runSteps_succ rfl hassert.step_assertReset)
      (hrelease.step_releaseReset rfl)) hst, h⟩

/-! ### How long an operation stays in flight (R73, R300) -/

/-- Within n steps of `s` nothing is in flight any more, or an access is refused. -/
def State.EndsWithin (n : Nat) (s : State) : Prop :=
  ∃ k, k ≤ n ∧ ((∃ t, runSteps k s = .next t ∧ t.pending = none) ∨ ∃ r, runSteps k s = .refused r)

section

variable {s t : State} {n : Nat}

theorem State.EndsWithin.of_quiescent (h : s.pending = none) : s.EndsWithin n :=
  ⟨0, n.zero_le, .inl ⟨s, rfl, h⟩⟩

theorem State.EndsWithin.of_refused {r : Refusal} (h : step s = .refused r) : s.EndsWithin (n + 1) :=
  ⟨1, by omega, .inr ⟨r, by simp only [runSteps, h]⟩⟩

theorem State.EndsWithin.of_step (hst : step s = .next t) (h : t.EndsWithin n) : s.EndsWithin (n + 1) := by
  obtain ⟨k, hk, h⟩ := h
  have hrun : runSteps (k + 1) s = runSteps k t := by simp only [runSteps, hst]
  exact ⟨k + 1, by omega, hrun ▸ h⟩

theorem State.EndsWithin.mono {m : Nat} (h : s.EndsWithin n) (hnm : n ≤ m) : s.EndsWithin m := by
  obtain ⟨k, hk, h⟩ := h
  exact ⟨k, hk.trans hnm, h⟩

/-- On the engine's turn the operation in flight completes at once (R129). -/
theorem State.EndsWithin.of_engine {op : Operation} (ht : s.env.turn = .engine) (hp : s.pending = some op) :
    s.EndsWithin 1 := by
  obtain ⟨u, hu⟩ := completeOperation_next ht hp
  obtain ⟨hpu, -, -⟩ := completeOperation_ends ht hp hu
  have hst : step s = .next u.schedule := by rw [step_engine ht hp, hu, mapNext]
  exact .of_step hst (.of_quiescent (by simpa using hpu))

end

/-- While an operation is in flight the engine moves next, or the outside world does and the delay is one less
(assumption log 2). -/
theorem schedule_inFlight {s : State} {op : Operation} (hp : s.pending = some op) :
    s.schedule.env.turn = .engine ∨ (s.schedule.env.turn = .host ∧ s.schedule.env.delay + 1 = s.env.delay) := by
  unfold State.schedule
  split <;> simp_all

/-- While BUSY = 1 nothing is accepted, so no new delay is drawn. -/
theorem HostEffect.delay {s u : State} (h : HostEffect s u) (hb : s.busy = true) : u.env.delay = s.env.delay := by
  cases h with
  | cmd l es w hl => rw [writeCmd_busy w (s := s.toCome l es) hb]; rfl
  | modulus l es w hl =>
    have hc : (s.toCome l es).configurable = false := State.not_configurable_iff.mpr (.inl hb)
    rw [writeModulus_dropped w hc]
    rfl
  | ctrl l es v hl => unfold State.writeCtrl; split <;> rfl
  | _ => rfl

/-- A turn of the outside world with an operation in flight: a reset ends it, else the engine moves next or the delay is
one less. -/
theorem State.Inv.step_inFlight {s t : State} {op : Operation} (h : s.Inv) (hp : s.pending = some op)
    (ht : s.env.turn = .host) (hst : step s = .next t) :
    t.pending = none ∨ (t.pending = some op ∧
      (t.env.turn = .engine ∨ (t.env.turn = .host ∧ t.env.delay + 1 = s.env.delay))) := by
  have hb : s.busy = true := by rw [h.busy_pending, hp]; rfl
  obtain ⟨op', u, hturn, -⟩ | ⟨u, -, hu, rfl⟩ := step_cases hst
  · simp [ht] at hturn
  · obtain hkept | hreset := hu.pending_or_isReset ht hb
    · have hpu : u.pending = some op := hkept.trans hp
      exact .inr ⟨by simpa using hpu, hu.delay hb ▸ schedule_inFlight hpu⟩
    · have hpu : u.pending = none := by rw [← State.isReset_iff.mp hreset]; rfl
      exact .inl (by simpa using hpu)

/-- An operation in flight ends within its delay and two steps more, whoever moves next. -/
theorem State.Inv.endsWithin {s : State} {op : Operation} (h : s.Inv) (hp : s.pending = some op) :
    s.EndsWithin (s.env.delay + 2) := by
  induction hd : s.env.delay using Nat.strong_induction_on generalizing s with
  | _ d ih =>
    cases ht : s.env.turn with
    | engine => exact (State.EndsWithin.of_engine ht hp).mono (by omega)
    | host =>
      cases hst : step s with
      | fault r => cases r
      | refused r => exact .of_refused hst
      | next t =>
        refine .of_step hst ?_
        obtain hpt | ⟨hpt, hengine | ⟨-, hdelay⟩⟩ := h.step_inFlight hp ht hst
        · exact .of_quiescent hpt
        · exact (State.EndsWithin.of_engine hengine hpt).mono (by omega)
        · exact (ih t.env.delay (by omega) (step_inv h hst) hpt rfl).mono (by omega)

/-- Settles O32, by `State.Inv.endsWithin`. -/
theorem operationInFlightCompletes : Obligations.OperationInFlightCompletes := by
  intro s h hp
  obtain ⟨op, hop⟩ := Option.ne_none_iff_exists'.mp hp
  exact h.endsWithin hop

end Sys2Proof.Machine
end
